-- ==== Sys2Proof/Word.lean ====
section
/-! DEFINITION. The bit vectors of the block, one name for each width the spec gives (00_scope.md R9). -/

namespace Sys2Proof

/-- `ARG_W`, `DELAY_W`, `STEPS_W` = 32 (R9): the operand field, `delay_unit`, `steps_left`. -/
abbrev Word := BitVec 32

/-- `CMD_W` = 34 (R9): a command word `cmd[33:0]` (R70). -/
abbrev CmdWord := BitVec 34

/-- `OP_W` = 2 (R9): the opcode field `cmd[33:32]`. -/
abbrev Opcode := BitVec 2

/-- `PHASE_W` = 3 (R9): an index of the phase table. -/
abbrev PhaseIx := BitVec 3

/-- `N_COILS` = 4 (R9): a coil pattern; bit `k` is coil `k` (R22, R54). -/
abbrev Pattern := BitVec 4

end Sys2Proof
end

