-- ==== Sys2Proof/Config.lean ====
section
/-! DEFINITION. The implementation parameters of 00_scope.md R9. The two that the spec leaves OPEN are constants
without a body: nothing can be proved about their values (log entry 3). -/

namespace Sys2Proof

/-- The OPEN parameters of one instance of the block (R9), fixed at synthesis. Every state carries them and no step
changes them, so a statement about every state is a statement about every value of them (log entry 3). -/
structure Params where
  /-- `CYCLES_PER_US`: clock cycles of `clk` per microsecond; R9 requires at least 1. -/
  cyclesPerUs : Nat
  /-- `DELAY_INIT`: the value of `delay_unit` after reset; any 32-bit value (R9, D8). -/
  delayInit   : Word
  deriving DecidableEq, Repr

namespace Config

/-- `PHASE_INIT` = 0 (R9, D6). -/
def phaseInit : PhaseIx := 0#3

/-- `CYCLES_PER_US` less one, OPEN (R9, D12). No body: a free value (log entry 3). -/
opaque cyclesPerUsLessOne : Nat

/-- `DELAY_INIT`, OPEN (R9, D8). No body: a free value (log entry 3). -/
opaque delayInit : Word

/-- The parameters of the instance that `State.reset` belongs to; `CYCLES_PER_US` is positive as R9 requires. -/
def params : Params := ⟨cyclesPerUsLessOne + 1, delayInit⟩

end Config

end Sys2Proof
end

