-- ==== Sys2Proof/Machine/PhaseTable.lean ====
section
/-! DEFINITION. The phase table (40_apply_phase.md R90), the read-only store of 20_memory.md R51. -/

namespace Sys2Proof.Machine

/-- `pat(a, a', b, b')` (R11): the numeral of a row printed in the column order `A A' B B'`; the first column is coil 0,
bit 0 (R54). -/
def pat (a a' b b' : Nat) : Pattern := BitVec.ofNat 4 (a + 2 * a' + 4 * b + 8 * b')

/-- `PHASE_TABLE` (R90), copied in the source's own row and column order. -/
def phaseRows : Vector Pattern 8 :=
  #v[ pat 1 0 0 0
    , pat 1 1 0 0
    , pat 0 1 0 0
    , pat 0 1 1 0
    , pat 0 0 1 0
    , pat 0 0 1 1
    , pat 0 0 0 1
    , pat 1 0 0 1 ]

/-- `PHASE_TABLE[i]`; every 3-bit index is a row (R51, R55). -/
def phaseTable (i : PhaseIx) : Pattern := phaseRows[i.toNat]'i.isLt

end Sys2Proof.Machine
end

