-- ==== Sys2Proof/Machine/State.lean ====
section
/-! DEFINITION. The state of the block and its environment as plain data: the three architectural registers
(10_state.md R20), the four hidden registers (R30), and three fields of the model's own (the parameters, the input
levels of the coming edges, the event trace). -/

namespace Sys2Proof.Machine

/-- The register `fsm` (R31): `IDLE` is encoded 0, `RUN` 1 (log entry 9). -/
inductive Fsm where
  | idle
  | run
  deriving DecidableEq, Repr

/-- The register `dir` (R32): forward is 0, backward 1 (log entry 9). -/
inductive Dir where
  | fwd
  | bwd
  deriving DecidableEq, Repr

/-- An event of the trace (00_scope.md R13). -/
inductive Event where
  /-- `W(k, level)`: a pin write of coil `k`. -/
  | pinWrite (k : Fin 4) (level : Bool)
  /-- `WAIT(d)`: a blocking wait of `d` microseconds. -/
  | wait (d : Nat)
  deriving DecidableEq, Repr

/-- The levels of the input ports at one rising edge of `clk` (R34). -/
structure PortIn where
  rst      : Bool
  cmdValid : Bool
  cmdOp    : Opcode
  cmdArg   : Word
  deriving DecidableEq, Repr

/-- The levels of the output ports in one cycle (R34). -/
structure PortOut where
  cmdReady : Bool
  coilOut  : Pattern
  busy     : Bool
  phase    : PhaseIx
  deriving DecidableEq, Repr

/-- The state just after a rising edge of `clk` (R130). -/
structure State where
  /-- `phase_index[2:0]` (R21). -/
  phaseIndex : PhaseIx
  /-- `coil_out[3:0]` (R22). -/
  coilOut    : Pattern
  /-- `delay_unit[31:0]` (R23). -/
  delayUnit  : Word
  /-- `fsm` (R31). -/
  fsm        : Fsm
  /-- `dir` (R32). -/
  dir        : Dir
  /-- `steps_left[31:0]` (R32). -/
  stepsLeft  : Word
  /-- `wait_cnt` (R33); the spec fixes no width but one that never overflows, so a natural number (log entry 5). -/
  waitCnt    : Nat
  /-- MODEL's own: the OPEN parameters (R9), constant (log entry 3). -/
  params     : Params
  /-- MODEL's own: the input levels of the coming edges, soonest first; past its end nothing is presented and `rst` is
  0 (log entry 2). -/
  inputs     : List PortIn
  /-- MODEL's own: the event trace so far, oldest first (R13): an observation, not a register (log entry 4). -/
  trace      : List Event
  deriving DecidableEq, Repr

/-- Why a step could stop with a fault: never. "The set of exception causes is empty" (60_exceptions.md R150), so the
type has no constructor. -/
inductive Fault where
  deriving DecidableEq, Repr

/-- Why a step could be refused. -/
inductive Refusal where
  /-- A command that has no meaning yet. Raised by the arms of `exec` only; no arm raises it. Safe. -/
  | notModelled (mnemonic : String)
  deriving DecidableEq, Repr

/-- The state after a clock edge with `rst = 1` (R36), for the parameters of `Config`; nothing presented yet (log entry
2) and no event yet (R173, log entry 4). -/
def State.reset : State where
  phaseIndex := Config.phaseInit
  coilOut    := phaseTable Config.phaseInit
  delayUnit  := Config.params.delayInit
  fsm        := .idle
  dir        := .fwd
  stepsLeft  := 0#32
  waitCnt    := 0
  params     := Config.params
  inputs     := []
  trace      := []

end Sys2Proof.Machine
end

