-- ==== Sys2Proof/Machine/Flags.lean ====
section
/-! DEFINITION. The block has no flags (10_state.md R25). What the host can see is a function of the registers alone
(R35): the status outputs `busy` and `cmd_ready`, and the copies of `phase_index` and `coil_out`. -/

namespace Sys2Proof.Machine

/-- The encoding of `fsm` (R31). -/
def Fsm.code : Fsm → BitVec 1
  | .idle => 0#1
  | .run  => 1#1

/-- The encoding of `dir` (R32). -/
def Dir.code : Dir → BitVec 1
  | .fwd => 0#1
  | .bwd => 1#1

/-- `busy = (fsm = RUN)` (R25, R35). -/
def State.busy (s : State) : Bool := decide (s.fsm = .run)

/-- `cmd_ready = (fsm = IDLE)` (R35). -/
def State.cmdReady (s : State) : Bool := decide (s.fsm = .idle)

/-- All output ports (R34, R35). -/
def State.outputs (s : State) : PortOut := ⟨s.cmdReady, s.coilOut, s.busy, s.phaseIndex⟩

end Sys2Proof.Machine
end

