-- ==== Sys2Proof/Syntax.lean ====
section
/-! DEFINITION. The commands of the block: one constructor per row of spec/opcode_table.json (30_encoding.md R72). -/

namespace Sys2Proof

/-- A command. The operands are what the rules read, not raw bits: R72 reads the operand of `ROTATE` as the integer
`sext_32(arg)` and that of `SET_SPEED` as the natural number `zext_32(arg)`. The two step commands have no operand:
their `arg` field is ignored and no state records it (R75). -/
inductive Instr where
  /-- `STEP_FWD` (R101). -/
  | stepFwd
  /-- `STEP_BWD` (R102). -/
  | stepBwd
  /-- `ROTATE steps` (R110); `steps` in `[-2^31, 2^31 - 1]`. -/
  | rotate (steps : Int)
  /-- `SET_SPEED delay` (R120); `delay` in `[0, 2^32 - 1]`. -/
  | setSpeed (delay : Nat)
  deriving DecidableEq, Repr

end Sys2Proof
end

