-- ==== Sys2Proof/WellFormed.lean ====
section
/-! DEFINITION. Which commands have an encoding: the operand ranges of 30_encoding.md R79 (R72, R110, R120). -/

namespace Sys2Proof

/-- The operand lies in the range R79 gives; one outside it "has no encoding and is refused by whoever assembles the
text". The three checks: the least and the greatest `ROTATE` operand, the greatest `SET_SPEED` operand. -/
def Instr.wellFormed : Instr → Bool
  | .stepFwd        => true
  | .stepBwd        => true
  | .rotate steps   => decide (-2147483648 ≤ steps) && decide (steps ≤ 2147483647)
  | .setSpeed delay => decide (delay ≤ 4294967295)

/-- `Instr.wellFormed` as a proposition. -/
abbrev Instr.WellFormed (i : Instr) : Prop := i.wellFormed = true

end Sys2Proof
end

