-- ==== Sys2Proof/Decode.lean ====
section
/-! DEFINITION. The command word (30_encoding.md R70 to R75): its fields, the decoder, total on every word, the opcode
table, and the encoder. -/

namespace Sys2Proof

/-! ## Fields (R70) and operand assembly (R73) -/

/-- `op = cmd[33:32]`. -/
def opOf (w : CmdWord) : Opcode := w.extractLsb' 32 2

/-- `arg = cmd[31:0]`. -/
def argOf (w : CmdWord) : Word := w.extractLsb' 0 32

/-- The word with the given fields, `{op, arg}` (R11 concatenation, R70). -/
def packWord (op : Opcode) (arg : Word) : CmdWord := op ++ arg

/-- `sext_32(v)` (R11): the two's complement integer in `[-2^31, 2^31 - 1]`. -/
def sext32 (v : Word) : Int := v.toInt

/-- `zext_32(v)` (R11): the natural number in `[0, 2^32 - 1]`. -/
def zext32 (v : Word) : Nat := v.toNat

/-! ## The opcode map (R72, D4) -/

/-- `op` of `STEP_FWD`. -/
def codeStepFwd : Opcode := 0b00#2
/-- `op` of `STEP_BWD`. -/
def codeStepBwd : Opcode := 0b01#2
/-- `op` of `ROTATE`. -/
def codeRotate : Opcode := 0b10#2
/-- `op` of `SET_SPEED`. -/
def codeSetSpeed : Opcode := 0b11#2

/-- One row of spec/opcode_table.json. -/
structure OpcodeRow where
  mnemonic  : String
  matchBits : CmdWord
  mask      : CmdWord
  deriving DecidableEq, Repr

/-- spec/opcode_table.json. -/
def opcodeTable : List OpcodeRow :=
  [ ⟨"STEP_FWD",  0x000000000#34, 0x300000000#34⟩
  , ⟨"STEP_BWD",  0x100000000#34, 0x300000000#34⟩
  , ⟨"ROTATE",    0x200000000#34, 0x300000000#34⟩
  , ⟨"SET_SPEED", 0x300000000#34, 0x300000000#34⟩ ]

/-- The word belongs to the row. -/
def OpcodeRow.covers (r : OpcodeRow) (w : CmdWord) : Bool := w &&& r.mask == r.matchBits

/-- The command's name in spec/opcode_table.json. -/
def Instr.mnemonic : Instr → String
  | .stepFwd    => "STEP_FWD"
  | .stepBwd    => "STEP_BWD"
  | .rotate _   => "ROTATE"
  | .setSpeed _ => "SET_SPEED"

/-! ## The decoder -/

/-- The command of a word; total, since all four opcodes are assigned (R74). -/
def decode (w : CmdWord) : Instr :=
  if opOf w = codeStepFwd then .stepFwd
  else if opOf w = codeStepBwd then .stepBwd
  else if opOf w = codeRotate then .rotate (sext32 (argOf w))
  else .setSpeed (zext32 (argOf w))

/-- Why a number is no command. -/
inductive DecodeError where
  /-- The number has a bit above `cmd[33]`: it is no 34-bit word (R70). Raised by `decodeNat`; safe. -/
  | notACommandWord
  deriving DecidableEq, Repr

/-- The command of a number read as a command word, or a refusal by name. -/
def decodeNat (n : Nat) : Except DecodeError Instr :=
  if n < 2 ^ 34 then .ok (decode (BitVec.ofNat 34 n)) else .error .notACommandWord

/-! ## The encoder -/

/-- The operand field of a `ROTATE` word: `steps mod 2^32` (R79). -/
def rotateArg (steps : Int) : Word := BitVec.ofInt 32 steps

/-- The operand field of a `SET_SPEED` word (R79). -/
def setSpeedArg (delay : Nat) : Word := BitVec.ofNat 32 delay

/-- The word of a command (R79); the two step commands take their canonical words, `arg = 0` (R75). -/
def encode : Instr → CmdWord
  | .stepFwd        => packWord codeStepFwd 0#32
  | .stepBwd        => packWord codeStepBwd 0#32
  | .rotate steps   => packWord codeRotate (rotateArg steps)
  | .setSpeed delay => packWord codeSetSpeed (setSpeedArg delay)

/-- The canonical word of the same command: the ignored operand field of a step command cleared (R75). -/
def canonicalWord (w : CmdWord) : CmdWord :=
  if opOf w = codeStepFwd ∨ opOf w = codeStepBwd then packWord (opOf w) 0#32 else w

/-! ## The host's numbering of a table row -/

/-- The command the decoder reads from the bits `w` of a row of `nbits` bits (bits above `nbits` are 0); none where the
number is no 34-bit word. -/
def decodeTableWord (nbits w : Nat) : Option Instr :=
  match decodeNat (w % 2 ^ nbits) with
  | .ok i    => some i
  | .error _ => none

end Sys2Proof
end

