-- ==== Sys2Proof/Machine/Operands.lean ====
section
/-! DEFINITION. What a command's operand means to the registers (30_encoding.md R73, 42_rotate.md R114, 45_cycle_fsm.md
R133). -/

namespace Sys2Proof.Machine

/-- The index increment of a step: `+1` forward, `+7` backward, modulo 8 (R100, R132). -/
def Dir.increment : Dir → PhaseIx
  | .fwd => 1#3
  | .bwd => 7#3

/-- `(phase_index + (d = 0 ? 1 : 7)) mod 8` (R132): a 3-bit addition, the carry discarded (R139). -/
def turn (d : Dir) (p : PhaseIx) : PhaseIx := p + d.increment

/-- The direction of `ROTATE steps`: `steps < 0 ? 1 : 0` (R133). -/
def rotateDir (steps : Int) : Dir := if steps < 0 then .bwd else .fwd

/-- The value loaded into `steps_left` when `ROTATE steps` is accepted: `abs(steps) - 1` (R133), with the mathematical
absolute value (R114). -/
def stepsAfterFirst (steps : Int) : Word := BitVec.ofNat 32 (steps.natAbs - 1)

/-- The value `SET_SPEED` writes to `delay_unit`: the operand as given (R121). -/
def delayOperand (delay : Nat) : Word := BitVec.ofNat 32 delay

/-- How many steps a command performs (R101, R102, R110, R120). -/
def stepsOf : Instr → Nat
  | .stepFwd    => 1
  | .stepBwd    => 1
  | .rotate n   => n.natAbs
  | .setSpeed _ => 0

/-- The direction of a command's steps. -/
def dirOf : Instr → Dir
  | .stepFwd    => .fwd
  | .stepBwd    => .bwd
  | .rotate n   => rotateDir n
  | .setSpeed _ => .fwd

/-- `T = zext_32(delay_unit) * CYCLES_PER_US` (R132, R135): the wait of a step in clock cycles. -/
def waitCycles (delay : Word) (p : Params) : Nat := zext32 delay * p.cyclesPerUs

end Sys2Proof.Machine
end

