-- ==== Sys2Proof/Machine/Ops.lean ====
section
/-! DEFINITION. The shared operations of the cycle level (45_cycle_fsm.md): the input port, `begin_step`, `run`, and
reset, the block's nearest thing to taking an exception (60_exceptions.md R154). -/

namespace Sys2Proof.Machine

/-! ## The input port (10_state.md R34, 30_encoding.md R76) -/

/-- Nothing presented and no reset; `cmd_op` and `cmd_arg` may then hold any value (R76), here 0 (log entry 2). -/
def PortIn.quiet : PortIn := ⟨false, false, 0#2, 0#32⟩

/-- The host presents a command word; no reset. -/
def PortIn.present (w : CmdWord) : PortIn := ⟨false, true, opOf w, argOf w⟩

/-- The reset source asserts `rst`; nothing presented. -/
def PortIn.resetLine : PortIn := ⟨true, false, 0#2, 0#32⟩

/-- The command word on the port (R70). -/
def PortIn.word (p : PortIn) : CmdWord := packWord p.cmdOp p.cmdArg

/-- The input levels that the next edge samples. -/
def State.port (s : State) : PortIn := s.inputs.headD .quiet

/-- The edge has passed for the environment: the inputs move on by one. No register changes. -/
def State.advance (s : State) : State := { s with inputs := s.inputs.tail }

/-! ## Applying a phase and beginning a step -/

/-- The four pin writes of one apply, in coil order 0..3 (40_apply_phase.md R92). -/
def applyEvents (p : Pattern) : List Event :=
  [.pinWrite 0 (p.getLsbD 0), .pinWrite 1 (p.getLsbD 1), .pinWrite 2 (p.getLsbD 2), .pinWrite 3 (p.getLsbD 3)]

/-- The five events of a step that applies row `n` and waits `delay` (R100). -/
def stepEvents (n : PhaseIx) (delay : Word) : List Event :=
  applyEvents (phaseTable n) ++ [.wait (zext32 delay)]

/-- `begin_step(d)` (R132), all on one edge: every right side reads the registers before the edge (R11). The step's
five events enter the trace on this edge (R141 (b), log entry 4). -/
def beginStep (d : Dir) (s : State) : State :=
  { s with
    phaseIndex := turn d s.phaseIndex
    coilOut    := phaseTable (turn d s.phaseIndex)
    waitCnt    := waitCycles s.delayUnit s.params
    fsm        := .run
    trace      := s.trace ++ stepEvents (turn d s.phaseIndex) s.delayUnit }

/-- Accepting a command of `more + 1` steps in direction `d` (R133): `dir <- d; steps_left <- more; begin_step(d)`. -/
def startMove (d : Dir) (more : Word) (s : State) : State :=
  beginStep d { s with dir := d, stepsLeft := more }

/-! ## The other things an edge can do -/

/-- `run()` (R134): an edge with `rst = 0` and `fsm = RUN`. The edge that finds `wait_cnt = 0` is the one overhead
cycle of a step, `STEP_OVERHEAD` = 1 (R9, D13). -/
def progress (s : State) : State :=
  if s.waitCnt ≠ 0 then { s with waitCnt := s.waitCnt - 1 }
  else if s.stepsLeft ≠ 0#32 then beginStep s.dir { s with stepsLeft := s.stepsLeft - 1#32 }
  else { s with fsm := .idle }

/-- `reset_registers()` (R36, R170): all seven registers, whatever the state; no event (R173). Parameters, inputs and
trace are no registers and stay. -/
def resetRegisters (s : State) : State :=
  { s with
    phaseIndex := Config.phaseInit
    coilOut    := phaseTable Config.phaseInit
    delayUnit  := s.params.delayInit
    fsm        := .idle
    dir        := .fwd
    stepsLeft  := 0#32
    waitCnt    := 0 }

/-! ## Placing a command where the next edge finds it (log entry 6) -/

/-- What a host drives to present the number `n`: the word, or nothing where `n` is no 34-bit word (R79). -/
def PortIn.ofNumber (n : Nat) : PortIn :=
  if n < 2 ^ 34 then .present (BitVec.ofNat 34 n) else .quiet

/-- The same machine, quiescent, with the levels `p` on the port at the next edge. -/
def State.withPort (s : State) (p : PortIn) : State :=
  { s with fsm := .idle, waitCnt := 0, inputs := p :: s.inputs.tail }

end Sys2Proof.Machine
end

