-- ==== Sys2Proof/Machine/Rotate.lean ====
section
/-! DEFINITION. `ROTATE` (42_rotate.md R110) on the edge that accepts it (45_cycle_fsm.md R133). -/

namespace Sys2Proof.Machine

/-- `0b10` (R133): nothing changes for 0 steps; otherwise `dir`, `steps_left <- abs(s) - 1` and the first step. -/
def execRotate (steps : Int) (s : State) : Host.Outcome State Fault Refusal :=
  if steps = 0 then .next s else .next (startMove (rotateDir steps) (stepsAfterFirst steps) s)

end Sys2Proof.Machine
end

