-- ==== Sys2Proof/Machine/SetSpeed.lean ====
section
/-! DEFINITION. `SET_SPEED` (43_set_speed.md R120) on the edge that accepts it (45_cycle_fsm.md R133). -/

namespace Sys2Proof.Machine

/-- `0b11: delay_unit <- arg`; `fsm` stays `IDLE` (R133). -/
def execSetSpeed (delay : Nat) (s : State) : Host.Outcome State Fault Refusal :=
  .next { s with delayUnit := delayOperand delay }

end Sys2Proof.Machine
end

