-- ==== Sys2Proof/Machine/Steps.lean ====
section
/-! DEFINITION. `STEP_FWD` and `STEP_BWD` (41_step.md R101, R102) on the edge that accepts them (45_cycle_fsm.md R133). -/

namespace Sys2Proof.Machine

/-- `0b00: dir <- 0; steps_left <- 0; begin_step(0)` (R133). -/
def execStepFwd (s : State) : Host.Outcome State Fault Refusal := .next (startMove .fwd 0#32 s)

/-- `0b01: dir <- 1; steps_left <- 0; begin_step(1)` (R133). -/
def execStepBwd (s : State) : Host.Outcome State Fault Refusal := .next (startMove .bwd 0#32 s)

end Sys2Proof.Machine
end

