-- ==== Sys2Proof/Machine/Dispatch.lean ====
section
/-! DEFINITION. `accept(op, arg)` (45_cycle_fsm.md R133): the command of an accepting edge, one arm per command. -/

namespace Sys2Proof.Machine

def exec (i : Instr) (s : State) : Host.Outcome State Fault Refusal :=
  match i with
  | .stepFwd => Sys2Proof.Machine.execStepFwd s
  | .stepBwd => Sys2Proof.Machine.execStepBwd s
  | .rotate steps => Sys2Proof.Machine.execRotate steps s
  | .setSpeed delay => Sys2Proof.Machine.execSetSpeed delay s

end Sys2Proof.Machine
end

