-- ==== Sys2Proof/Machine/Edge.lean ====
section
/-! DEFINITION. The edge function (45_cycle_fsm.md R131). -/

namespace Sys2Proof.Machine

/-- `edge()` (R131): reset first; in `RUN` internal progress, the command inputs not looked at; in `IDLE` a presented
command is accepted, and with none presented nothing changes. The order is the priority of 60_exceptions.md R153. -/
def edge (s : State) : Host.Outcome State Fault Refusal :=
  if s.port.rst then .next (resetRegisters s.advance)
  else
    match s.fsm with
    | .idle => if s.port.cmdValid then exec (decode s.port.word) s.advance else .next s.advance
    | .run  => .next (progress s.advance)

end Sys2Proof.Machine
end

