-- ==== Sys2Proof/Machine/Step.lean ====
section
/-! DEFINITION. One step of the machine is one rising edge of `clk` (45_cycle_fsm.md R130; log entry 1). -/

namespace Sys2Proof.Machine

/-- One rising edge. -/
def step (s : State) : Host.Outcome State Fault Refusal := edge s

/-- `s`, quiescent, with the command whose bits are `w` presented at the next edge, so that the next step accepts it; a
number that is no command word presents nothing. There is no program store: this stands for the host's presenting a
command (log entry 6). -/
def State.withFetchWord (s : State) (nbits w : Nat) : State :=
  s.withPort (PortIn.ofNumber (w % 2 ^ nbits))

end Sys2Proof.Machine
end

