-- ==== Sys2Proof/Machine/Operation.lean ====
section
/-! DEFINITION. The operation level (40_apply_phase.md to 43_set_speed.md): one command is one atomic transition of the
three architectural registers that appends its events to the trace. At this level the assignments of a rule happen in
the written order (00_scope.md R11). -/

namespace Sys2Proof.Machine

/-- The architectural state (R20) and the event trace (R13). -/
structure OpState where
  phaseIndex : PhaseIx
  coilOut    : Pattern
  delayUnit  : Word
  trace      : List Event
  deriving DecidableEq, Repr

/-- What the operation level sees of the block: the hidden registers, parameters and inputs left out. -/
def State.op (s : State) : OpState := ⟨s.phaseIndex, s.coilOut, s.delayUnit, s.trace⟩

/-- `coil_out[k] <- level`. -/
def setCoil (c : Pattern) (k : Fin 4) (level : Bool) : Pattern :=
  if level then c ||| (1#4 <<< k.val) else c &&& ~~~(1#4 <<< k.val)

/-- `PinWrite(k, level)` (R11, 20_memory.md R52). It cannot fail (R93). -/
def pinWrite (k : Fin 4) (level : Bool) (o : OpState) : OpState :=
  { o with coilOut := setCoil o.coilOut k level, trace := o.trace ++ [.pinWrite k level] }

/-- `Wait(d)` (R11): changes no register; `Wait(0)` is an event too (R100, R122). -/
def waitFor (d : Nat) (o : OpState) : OpState := { o with trace := o.trace ++ [.wait d] }

/-- `apply_current_phase` with the row already read: the four pin writes in coil order (R92). -/
def writeRow (p : Pattern) (o : OpState) : OpState :=
  pinWrite 3 (p.getLsbD 3) (pinWrite 2 (p.getLsbD 2) (pinWrite 1 (p.getLsbD 1) (pinWrite 0 (p.getLsbD 0) o)))

/-- `apply_current_phase()` (R92): one table read, four pin writes. -/
def applyCurrentPhase (o : OpState) : OpState := writeRow (phaseTable o.phaseIndex) o

/-- `step(d)` (R100): index, apply, wait for the `delay_unit` read then. -/
def microStep (d : Dir) (o : OpState) : OpState :=
  let applied := applyCurrentPhase { o with phaseIndex := turn d o.phaseIndex }
  waitFor (zext32 applied.delayUnit) applied

/-- `repeat n times: step(d)` (R110). -/
def repeatStep : Nat → Dir → OpState → OpState
  | 0,     _, o => o
  | n + 1, d, o => repeatStep n d (microStep d o)

/-- `STEP_FWD` (R101). -/
def opStepFwd (o : OpState) : OpState := microStep .fwd o

/-- `STEP_BWD` (R102). -/
def opStepBwd (o : OpState) : OpState := microStep .bwd o

/-- `ROTATE steps` (R110). -/
def opRotate (steps : Int) (o : OpState) : OpState :=
  if 0 < steps then repeatStep steps.natAbs .fwd o
  else if steps < 0 then repeatStep steps.natAbs .bwd o
  else o

/-- `SET_SPEED delay` (R120). -/
def opSetSpeed (delay : Nat) (o : OpState) : OpState := { o with delayUnit := delayOperand delay }

/-- One command as one atomic transition (41_step.md). -/
def opExec : Instr → OpState → OpState
  | .stepFwd,        o => opStepFwd o
  | .stepBwd,        o => opStepBwd o
  | .rotate steps,   o => opRotate steps o
  | .setSpeed delay, o => opSetSpeed delay o

/-- A list of commands in the order accepted (20_memory.md R61). -/
def runCommands : List Instr → OpState → OpState
  | [],        o => o
  | i :: rest, o => runCommands rest (opExec i o)

/-- The microseconds of the `WAIT` events of a trace, summed (R115). -/
def totalWait : List Event → Nat
  | []                   => 0
  | .wait d :: rest       => d + totalWait rest
  | .pinWrite _ _ :: rest => totalWait rest

end Sys2Proof.Machine
end

