-- ==== Sys2Proof/Machine/Observe.lean ====
section
/-! DEFINITION. Observing a run: several edges, the commands accepted on them, the time stamps of events (00_scope.md
R13, R14, 45_cycle_fsm.md R140). Nothing here changes what the machine does. -/

namespace Sys2Proof.Machine

/-- `n` edges, stopping at the first stop. -/
def runEdges : Nat → State → Host.Outcome State Fault Refusal
  | 0,     s => .next s
  | n + 1, s =>
    match step s with
    | .next t    => runEdges n t
    | .fault r   => .fault r
    | .refused r => .refused r

/-- The command the next edge accepts: `rst = 0`, `cmd_valid = 1` and `cmd_ready = 1` (30_encoding.md R76). -/
def acceptedAt (s : State) : Option Instr :=
  if !s.port.rst && s.port.cmdValid && s.cmdReady then some (decode s.port.word) else none

/-- The commands accepted on the next `n` edges, in order. -/
def acceptedRun : Nat → State → List Instr
  | 0,     _ => []
  | n + 1, s =>
    (acceptedAt s).toList ++
      (match step s with
       | .next t    => acceptedRun n t
       | .fault _   => []
       | .refused _ => [])

/-- The events of the next `n` edges, each with the number of the edge it enters the trace on, the next edge being
number `e`. A pin write stands on the edge of its `begin_step`; a `WAIT` stands on the edge its wait begins with, and
occupies the `T` edges after it (R140). -/
def timeline (e : Nat) : Nat → State → List (Nat × Event)
  | 0,     _ => []
  | n + 1, s =>
    match step s with
    | .next t    => (t.trace.drop s.trace.length).map (fun ev => (e, ev)) ++ timeline (e + 1) n t
    | .fault _   => []
    | .refused _ => []

/-- `rst = 0` on all edges to come. -/
abbrev State.noReset (s : State) : Prop := ∀ p ∈ s.inputs, p.rst = false

/-- After `n` edges every command of the list has been accepted, nothing else, and the block is quiescent. -/
def quiescentAfter (cmds : List Instr) (n : Nat) (s : State) : Prop :=
  acceptedRun n s = cmds ∧ ∃ t, runEdges n s = .next t ∧ t.fsm = .idle

/-- The run of the command list ends after `n` edges: at the first such state (R14). -/
def endOfRun (cmds : List Instr) (n : Nat) (s : State) : Prop :=
  quiescentAfter cmds n s ∧ ∀ m < n, ¬ quiescentAfter cmds m s

end Sys2Proof.Machine
end

