-- ==== Sys2Proof/Machine/TextSyntax.lean ====
section
/-! DEFINITION. The text syntax of commands and the pseudo-commands (30_encoding.md R79, R80). -/

namespace Sys2Proof.Machine

/-- A line of a program listing. `NOP` is `ROTATE 0`. -/
inductive ProgLine where
  | cmd (i : Instr)
  /-- `PAUSE t`: no command; the host presents nothing for at least `t` microseconds (R80). -/
  | pause (t : Nat)
  /-- `RESET`: the reset source holds `rst = 1` for one edge (R80). -/
  | reset
  deriving DecidableEq, Repr

/-- Why a line has no word. -/
inductive TextError where
  /-- The text is no line of R79 or R80 (also `apply_current_phase`, which has no text form). Safe. -/
  | unknownText
  /-- The operand is outside the range of R79; it is refused, not truncated. Safe. -/
  | operandOutOfRange
  deriving DecidableEq, Repr

/-- The value of a decimal digit. -/
def digitOf (c : Char) : Option Nat :=
  if 48 ≤ c.toNat ∧ c.toNat ≤ 57 then some (c.toNat - 48) else none

/-- Digits read on from the value `acc`. -/
def digitsFrom (acc : Nat) : List Char → Option Nat
  | []      => some acc
  | c :: cs =>
    match digitOf c with
    | some d => digitsFrom (acc * 10 + d) cs
    | none   => none

/-- A decimal natural number, at least one digit (log entry 8). -/
def naturalOf : List Char → Option Nat
  | []      => none
  | c :: cs => digitsFrom 0 (c :: cs)

/-- A decimal integer, with an optional `-`. -/
def integerOf : List Char → Option Int
  | '-' :: cs => (naturalOf cs).map fun n => -(n : Int)
  | cs        => (naturalOf cs).map fun n => (n : Int)

/-- What follows `key` in the text, if the text begins with it. -/
def after : List Char → List Char → Option (List Char)
  | [],      cs      => some cs
  | _ :: _,  []      => none
  | k :: ks, c :: cs => if k = c then after ks cs else none

/-- The operand of `key`, written after a space or, in the source's spelling, between parentheses. -/
def operandOf (mnemonic call : String) (cs : List Char) : Option (List Char) :=
  match after (mnemonic.toList ++ [' ']) cs with
  | some rest => some rest
  | none =>
    match after (call.toList ++ ['(']) cs with
    | some rest => if rest.getLast? = some ')' then some rest.dropLast else none
    | none      => none

/-- A command whose operand is in range, or the refusal of R79. -/
def inRange (i : Instr) : Except TextError ProgLine :=
  if i.wellFormed then .ok (.cmd i) else .error .operandOutOfRange

/-- The line a text stands for: the spellings of R79 (mnemonic or the source's call) and of R80. -/
def parseLine (cs : List Char) : Except TextError ProgLine :=
  if cs = "STEP_FWD".toList ∨ cs = "step_forward()".toList then .ok (.cmd .stepFwd)
  else if cs = "STEP_BWD".toList ∨ cs = "step_backward()".toList then .ok (.cmd .stepBwd)
  else if cs = "NOP".toList then .ok (.cmd (.rotate 0))
  else if cs = "RESET".toList then .ok .reset
  else
    match operandOf "ROTATE" "rotate" cs with
    | some rest =>
      match integerOf rest with
      | some n => inRange (.rotate n)
      | none   => .error .unknownText
    | none =>
      match operandOf "SET_SPEED" "set_speed" cs with
      | some rest =>
        match naturalOf rest with
        | some d => inRange (.setSpeed d)
        | none   => .error .unknownText
      | none =>
        match after "PAUSE ".toList cs with
        | some rest =>
          match naturalOf rest with
          | some t => .ok (.pause t)
          | none   => .error .unknownText
        | none => .error .unknownText

end Sys2Proof.Machine
end

