-- ==== Sys2Proof/Machine/HostAgent.lean ====
section
/-! DEFINITION. A host that performs a program listing (30_encoding.md R79, R80): it presents each command from as early
as possible and holds it until an edge accepts it (70_reset_and_hazards.md R182), pauses, and has `rst` asserted. It is
one environment of the block among all the environments that `State.inputs` can hold. -/

namespace Sys2Proof.Machine

/-- What the host does next. -/
inductive HostAct where
  /-- Present the command and hold it until it is accepted. -/
  | command (i : Instr)
  /-- After the previous command is complete, present nothing on `edges` edges and one more. -/
  | rest (edges : Nat)
  /-- `rst = 1` on one edge, the very next one (log entry 13). -/
  | reset
  deriving DecidableEq, Repr

/-- The action of a listing's line; a pause of `t` microseconds lasts at least `t * CYCLES_PER_US` edges (R80). -/
def actOf (p : Params) : ProgLine → HostAct
  | .cmd i   => .command i
  | .pause t => .rest (t * p.cyclesPerUs)
  | .reset   => .reset

/-- The levels the host drives at the next edge, seeing only `cmd_ready`, and what is left to do after that edge.
R80 says that a `RESET` line is one edge with `rst = 1`, and not which edge: DESIGN CHOICE (log entry 13), it is the very
next edge after those of the line before, so that it cuts short a command accepted on the edge before, and nothing is
presented on it. -/
def hostEdge (ready : Bool) : List HostAct → PortIn × List HostAct
  | []                       => (.quiet, [])
  | .reset :: acts           => (.resetLine, acts)
  | .command i :: acts       => (.present (encode i), if ready then acts else .command i :: acts)
  | .rest 0 :: acts          => (.quiet, if ready then acts else .rest 0 :: acts)
  | .rest (edges + 1) :: acts => (.quiet, if ready then .rest edges :: acts else .rest (edges + 1) :: acts)

/-- Block and host together for `n` edges. -/
def drive : Nat → List HostAct → State → Host.Outcome State Fault Refusal
  | 0,     _,    s => .next s
  | n + 1, acts, s =>
    match step { s with inputs := [(hostEdge s.cmdReady acts).1] } with
    | .next t    => drive n (hostEdge s.cmdReady acts).2 t
    | .fault r   => .fault r
    | .refused r => .refused r

end Sys2Proof.Machine
end

