-- ==== Sys2Proof/Safety.lean ====
section
/-! DEFINITION. What counts as a safe state and which states a run can reach: the phase invariant (10_state.md R27), the
bounds of the hidden registers (R32, R33, R37), and reachability from reset (R37, 70_reset_and_hazards.md R171). -/

namespace Sys2Proof.Machine

/-- The invariant of the block. Its clauses: the phase invariant (R27); an idle block waits for nothing (R37); a wait in
progress is at most the wait of one step (R132, R135); bit 31 of `steps_left` is 0 (R32); `CYCLES_PER_US` is positive
(R9). -/
abbrev State.Inv (s : State) : Prop :=
  s.coilOut = phaseTable s.phaseIndex ∧
  (s.fsm = .idle → s.waitCnt = 0) ∧
  s.waitCnt ≤ waitCycles s.delayUnit s.params ∧
  s.stepsLeft.toNat < 2 ^ 31 ∧
  1 ≤ s.params.cyclesPerUs

/-- The state after reset of an instance with the parameters `p`, with the input levels of the coming edges. -/
def State.launch (p : Params) (ins : List PortIn) : State :=
  { State.reset with params := p, delayUnit := p.delayInit, inputs := ins }

/-- The states a run from reset can reach, for every instance and every sequence of inputs; that a reset has happened is
the launch premise of R171. -/
inductive Reachable : State → Prop where
  | launch (p : Params) (ins : List PortIn) (positive : 1 ≤ p.cyclesPerUs) : Reachable (State.launch p ins)
  | edge {s t : State} (before : Reachable s) (moved : step s = .next t) : Reachable t

/-- The eight patterns the coils can show after reset (R37). -/
def shownPatterns : List Pattern := [0x1#4, 0x3#4, 0x2#4, 0x6#4, 0x4#4, 0xC#4, 0x8#4, 0x9#4]

/-- The two patterns differ in at most one coil. -/
def atMostOneFlip (a b : Pattern) : Prop :=
  a = b ∨ ∃ k : Fin 4, a ^^^ b = 1#4 <<< k.val

end Sys2Proof.Machine
end

