-- ==== Sys2Proof/Certificates/Slice0/Obligations.lean ====
section
/-! DEFINITION. The statements for the provers: what the spec's rules say the block does. Where a rule is marked a
decision or a derivation of the spec's own, the docstring says so. `T` stands for `waitCycles delay_unit params`, that
is `zext_32(delay_unit) * CYCLES_PER_US` (45_cycle_fsm.md R135). -/

open Sys2Proof Sys2Proof.Machine

/-! ## The command word (30_encoding.md) -/

/-- R70 to R75, R79 (the encoding is the spec's decision D4): decoding the word of a command gives the command back,
for every operand that has an encoding. -/
def Obligations.DecodeOfEncodeIsTheCommand : Prop :=
  ∀ i : Instr, i.WellFormed → decode (encode i) = i

/-- R74, R75 (D4): every word is a command with an operand in range; encoding it again gives the same word, but for the
operand field a step command ignores, which becomes 0; and the canonical word is the same command. -/
def Obligations.EncodeOfDecodeIsTheCanonicalWord : Prop :=
  ∀ w : CmdWord, (decode w).WellFormed ∧ encode (decode w) = canonicalWord w ∧ decode (canonicalWord w) = decode w

/-- R79 (D20): the number of each command's word. -/
def Obligations.WordNumbersOfTheTextSyntax : Prop :=
  (encode .stepFwd).toNat = 0x000000000 ∧
  (encode .stepBwd).toNat = 0x100000000 ∧
  (∀ n : Int, (Instr.rotate n).WellFormed → (encode (.rotate n)).toNat = 0x200000000 + (n % 2 ^ 32).toNat) ∧
  (∀ d : Nat, (Instr.setSpeed d).WellFormed → (encode (.setSpeed d)).toNat = 0x300000000 + d)

/-- Words written out in 95_test_vectors.md section 3 decode to the commands named there. -/
def Obligations.WrittenOutWordsDecode : Prop :=
  decode 0x000000000#34 = .stepFwd ∧ decode 0x0DEADBEEF#34 = .stepFwd ∧
  decode 0x100000000#34 = .stepBwd ∧ decode 0x1FFFFFFFF#34 = .stepBwd ∧
  decode 0x200000000#34 = .rotate 0 ∧ decode 0x27FFFFFFF#34 = .rotate 2147483647 ∧
  decode 0x280000000#34 = .rotate (-2147483648) ∧ decode 0x2FFFFFFFD#34 = .rotate (-3) ∧
  decode 0x3000003E8#34 = .setSpeed 1000 ∧ decode 0x380000000#34 = .setSpeed 2147483648 ∧
  decode 0x3FFFFFFFF#34 = .setSpeed 4294967295

/-- R72, R73 (D3, D4): the opcode map and the reading of the operand field, for every value of the field. -/
def Obligations.OpcodeMapAndOperandReading : Prop :=
  ∀ arg : Word,
    decode (packWord 0b00#2 arg) = .stepFwd ∧
    decode (packWord 0b01#2 arg) = .stepBwd ∧
    decode (packWord 0b10#2 arg) = .rotate arg.toInt ∧
    decode (packWord 0b11#2 arg) = .setSpeed arg.toNat

/-- R74 (D4), spec/opcode_table.json: every word lies in exactly one row, the row of the command it decodes to. -/
def Obligations.EveryWordLiesInExactlyItsRow : Prop :=
  ∀ w : CmdWord, ∃ r ∈ opcodeTable, r.covers w = true ∧ r.mnemonic = (decode w).mnemonic ∧
    ∀ r' ∈ opcodeTable, r'.covers w = true → r' = r

/-- R79, R80 (D20): which line each text stands for, in the mnemonic and in the source's spelling. An operand in range
is taken as it is written; every operand outside is refused, not truncated; so whatever text is accepted as a command
has an encoding. `toString n` is the decimal text of `n`, with a `-` before a negative one. `apply_current_phase` has no
text form. -/
def Obligations.AcceptedTextHasAnEncoding : Prop :=
  (∀ (cs : List Char) (i : Instr), parseLine cs = .ok (.cmd i) → i.WellFormed) ∧
  (∀ n : Int, ∀ text ∈ ["ROTATE " ++ toString n, "rotate(" ++ toString n ++ ")"],
    parseLine text.toList =
      if -2147483648 ≤ n ∧ n ≤ 2147483647 then .ok (.cmd (.rotate n)) else .error .operandOutOfRange) ∧
  (∀ d : Nat, ∀ text ∈ ["SET_SPEED " ++ toString d, "set_speed(" ++ toString d ++ ")"],
    parseLine text.toList =
      if d ≤ 4294967295 then .ok (.cmd (.setSpeed d)) else .error .operandOutOfRange) ∧
  (∀ text ∈ ["STEP_FWD", "step_forward()"], parseLine text.toList = .ok (.cmd .stepFwd)) ∧
  (∀ text ∈ ["STEP_BWD", "step_backward()"], parseLine text.toList = .ok (.cmd .stepBwd)) ∧
  parseLine "NOP".toList = .ok (.cmd (.rotate 0)) ∧
  (∀ t : Nat, parseLine ("PAUSE " ++ toString t).toList = .ok (.pause t)) ∧
  parseLine "RESET".toList = .ok .reset ∧
  (∀ text ∈ ["apply_current_phase", "apply_current_phase()"], parseLine text.toList = .error .unknownText)

/-! ## The phase table and its application (40_apply_phase.md, 20_memory.md) -/

/-- R90: the eight rows, as the numeral of `coil_out[3:0]` and column by column (A, A', B, B' = bits 0, 1, 2, 3). -/
def Obligations.PhaseTableRows : Prop :=
  (phaseTable 0#3 = 0x1#4 ∧ phaseTable 1#3 = 0x3#4 ∧ phaseTable 2#3 = 0x2#4 ∧ phaseTable 3#3 = 0x6#4 ∧
   phaseTable 4#3 = 0x4#4 ∧ phaseTable 5#3 = 0xC#4 ∧ phaseTable 6#3 = 0x8#4 ∧ phaseTable 7#3 = 0x9#4) ∧
  (∀ i : PhaseIx,
    ((phaseTable i).getLsbD 0 = true ↔ i ∈ [0#3, 1#3, 7#3]) ∧
    ((phaseTable i).getLsbD 1 = true ↔ i ∈ [1#3, 2#3, 3#3]) ∧
    ((phaseTable i).getLsbD 2 = true ↔ i ∈ [3#3, 4#3, 5#3]) ∧
    ((phaseTable i).getLsbD 3 = true ↔ i ∈ [5#3, 6#3, 7#3]))

/-- R91 (derived by the spec from R90): distinct rows; one coil high at even indices and two at odd; the coil that each
row and its successor differ in. -/
def Obligations.PhaseTableProperties : Prop :=
  (∀ i j : PhaseIx, phaseTable i = phaseTable j → i = j) ∧
  (∀ i : PhaseIx, ([0, 1, 2, 3].countP fun k => (phaseTable i).getLsbD k) = if i.getLsbD 0 then 2 else 1) ∧
  (phaseTable 0#3 ^^^ phaseTable 1#3 = 1#4 <<< 1 ∧ phaseTable 1#3 ^^^ phaseTable 2#3 = 1#4 <<< 0 ∧
   phaseTable 2#3 ^^^ phaseTable 3#3 = 1#4 <<< 2 ∧ phaseTable 3#3 ^^^ phaseTable 4#3 = 1#4 <<< 1 ∧
   phaseTable 4#3 ^^^ phaseTable 5#3 = 1#4 <<< 3 ∧ phaseTable 5#3 ^^^ phaseTable 6#3 = 1#4 <<< 2 ∧
   phaseTable 6#3 ^^^ phaseTable 7#3 = 1#4 <<< 0 ∧ phaseTable 7#3 ^^^ phaseTable 0#3 = 1#4 <<< 3)

/-- R92: `apply_current_phase` writes the whole row, appends exactly its four pin writes in coil order and no wait, and
changes nothing else; on the hardware the four writes land on one edge, which is the one that moves the index (R57,
R132; D11, D13), and that edge writes no pin beside them; the worked example. -/
def Obligations.ApplyCurrentPhaseWritesTheRow : Prop :=
  (∀ o : OpState, applyCurrentPhase o =
    { o with
      coilOut := phaseTable o.phaseIndex
      trace   := o.trace ++
        [.pinWrite 0 ((phaseTable o.phaseIndex).getLsbD 0), .pinWrite 1 ((phaseTable o.phaseIndex).getLsbD 1),
         .pinWrite 2 ((phaseTable o.phaseIndex).getLsbD 2), .pinWrite 3 ((phaseTable o.phaseIndex).getLsbD 3)] }) ∧
  (∀ (d : Dir) (s : State),
    let applied := applyCurrentPhase { s.op with phaseIndex := turn d s.phaseIndex }
    (beginStep d s).phaseIndex = applied.phaseIndex ∧ (beginStep d s).coilOut = applied.coilOut ∧
    ∃ rest, (beginStep d s).trace = applied.trace ++ rest ∧ ∀ k level, Event.pinWrite k level ∉ rest) ∧
  (∀ (c : Pattern) (delay : Word), applyCurrentPhase ⟨3#3, c, delay, []⟩ =
    ⟨3#3, 0x6#4, delay, [.pinWrite 0 false, .pinWrite 1 true, .pinWrite 2 true, .pinWrite 3 false]⟩)

/-- R58 (derived by the spec): writing the bits of the next row one after another, in any order, with any number of
repetitions, shows no third pattern, and shows the new row once all four are written. -/
def Obligations.PinWritesInAnyOrderShowNoThirdPattern : Prop :=
  ∀ (d : Dir) (o : OpState) (ks : List (Fin 4)), o.coilOut = phaseTable o.phaseIndex →
    let row := phaseTable (turn d o.phaseIndex)
    let shown := (ks.foldl (fun u k => pinWrite k (row.getLsbD k.val) u) o).coilOut
    (shown = o.coilOut ∨ shown = row) ∧ ((∀ k : Fin 4, k ∈ ks) → shown = row)

/-! ## The commands at the operation level (41_step.md, 42_rotate.md, 43_set_speed.md) -/

/-- R101 whole: the encoding and the ignored operand; the state after and the events in order; the caller is blocked:
the block is busy after every edge from the accepting one on until the wait has elapsed; the worked example. -/
def Obligations.StepFwdRule : Prop :=
  (encode .stepFwd = 0x000000000#34 ∧ ∀ arg : Word, decode (packWord 0b00#2 arg) = .stepFwd) ∧
  (∀ o : OpState, opExec .stepFwd o =
    ⟨o.phaseIndex + 1#3, phaseTable (o.phaseIndex + 1#3), o.delayUnit,
     o.trace ++ (applyEvents (phaseTable (o.phaseIndex + 1#3)) ++ [.wait o.delayUnit.toNat])⟩) ∧
  (∀ (s : State) (k : Nat), s.noReset → acceptedAt s = some .stepFwd → k ≤ waitCycles s.delayUnit s.params →
    ∃ t, runEdges (k + 1) s = .next t ∧ t.busy = true ∧ acceptedAt t = none) ∧
  opExec .stepFwd ⟨0#3, 0x1#4, 1000#32, []⟩ =
    ⟨1#3, 0x3#4, 1000#32,
     [.pinWrite 0 true, .pinWrite 1 true, .pinWrite 2 false, .pinWrite 3 false, .wait 1000]⟩

/-- R102 whole: as R101 with `+ 7 mod 8`; the coil order is not reversed; the worked example. -/
def Obligations.StepBwdRule : Prop :=
  (encode .stepBwd = 0x100000000#34 ∧ ∀ arg : Word, decode (packWord 0b01#2 arg) = .stepBwd) ∧
  (∀ o : OpState, opExec .stepBwd o =
    ⟨o.phaseIndex + 7#3, phaseTable (o.phaseIndex + 7#3), o.delayUnit,
     o.trace ++ (applyEvents (phaseTable (o.phaseIndex + 7#3)) ++ [.wait o.delayUnit.toNat])⟩) ∧
  (∀ o : OpState, (opExec .stepBwd o).phaseIndex = o.phaseIndex - 1#3) ∧
  opExec .stepBwd ⟨0#3, 0x1#4, 1000#32, []⟩ =
    ⟨7#3, 0x9#4, 1000#32,
     [.pinWrite 0 true, .pinWrite 1 false, .pinWrite 2 false, .pinWrite 3 true, .wait 1000]⟩

/-- R103 (derived by the spec; conflict C5 fixes the order of the rows): `n` steps in one direction. -/
def Obligations.ConsecutiveStepsCompose : Prop :=
  ∀ (n : Nat) (o : OpState),
    ((runCommands (List.replicate n .stepFwd) o).phaseIndex.toNat = (o.phaseIndex.toNat + n) % 8 ∧
     (runCommands (List.replicate n .stepFwd) o).trace = o.trace ++
       (List.range n).flatMap fun (j : Nat) => stepEvents (o.phaseIndex + BitVec.ofNat 3 (j + 1)) o.delayUnit) ∧
    (((runCommands (List.replicate n .stepBwd) o).phaseIndex.toNat : Int) = ((o.phaseIndex.toNat : Int) - n) % 8 ∧
     (runCommands (List.replicate n .stepBwd) o).trace = o.trace ++
       (List.range n).flatMap fun (j : Nat) => stepEvents (o.phaseIndex - BitVec.ofNat 3 (j + 1)) o.delayUnit)

/-- R104 (derived by the spec): a step and its opposite restore index and coils; the trace holds ten more events. -/
def Obligations.OppositeStepsCancel : Prop :=
  ∀ o : OpState, o.coilOut = phaseTable o.phaseIndex →
    ((opExec .stepBwd (opExec .stepFwd o)).phaseIndex = o.phaseIndex ∧
     (opExec .stepBwd (opExec .stepFwd o)).coilOut = o.coilOut ∧
     (opExec .stepBwd (opExec .stepFwd o)).trace.length = o.trace.length + 10) ∧
    ((opExec .stepFwd (opExec .stepBwd o)).phaseIndex = o.phaseIndex ∧
     (opExec .stepFwd (opExec .stepBwd o)).coilOut = o.coilOut ∧
     (opExec .stepFwd (opExec .stepBwd o)).trace.length = o.trace.length + 10)

/-- R110 whole: the encoding; the state after and the events, group by group, for either sign; `ROTATE 0` changes no
register, hidden ones included, and appends nothing; the worked example. -/
def Obligations.RotateRule : Prop :=
  (∀ n : Int, (Instr.rotate n).WellFormed →
    (encode (.rotate n)).toNat = 0x200000000 + (n % 2 ^ 32).toNat ∧ decode (encode (.rotate n)) = .rotate n) ∧
  (∀ (n : Int) (o : OpState), n ≠ 0 → opExec (.rotate n) o =
    ⟨BitVec.ofInt 3 (o.phaseIndex.toNat + n), phaseTable (BitVec.ofInt 3 (o.phaseIndex.toNat + n)), o.delayUnit,
     o.trace ++ (List.range n.natAbs).flatMap fun (j : Nat) =>
       stepEvents (BitVec.ofInt 3 (o.phaseIndex.toNat + n.sign * ((j : Int) + 1))) o.delayUnit⟩) ∧
  (∀ (o : OpState) (s : State), opExec (.rotate 0) o = o ∧ exec (.rotate 0) s = .next s) ∧
  (∀ (c : Pattern) (delay : Word), opExec (.rotate (-3)) ⟨1#3, c, delay, []⟩ =
    ⟨6#3, 0x8#4, delay, stepEvents 0#3 delay ++ stepEvents 7#3 delay ++ stepEvents 6#3 delay⟩)

/-- R111: a rotation has the same final registers and the same events as that many single steps. -/
def Obligations.RotateEqualsSingleSteps : Prop :=
  ∀ (k : Nat) (o : OpState),
    opExec (.rotate (k : Int)) o = runCommands (List.replicate k .stepFwd) o ∧
    opExec (.rotate (-(k : Int))) o = runCommands (List.replicate k .stepBwd) o

/-- R112 (derived by the spec): a rotation and its opposite restore index and coils; `ROTATE -2^31`, whose opposite has
no word, leaves the index by itself. -/
def Obligations.RotateRoundTrip : Prop :=
  ∀ o : OpState, o.coilOut = phaseTable o.phaseIndex →
    (∀ k : Int, (opExec (.rotate (-k)) (opExec (.rotate k) o)).phaseIndex = o.phaseIndex ∧
      (opExec (.rotate (-k)) (opExec (.rotate k) o)).coilOut = o.coilOut) ∧
    (opExec (.rotate (-2147483648)) o).phaseIndex = o.phaseIndex ∧
    ¬ (Instr.rotate (-(-2147483648))).WellFormed

/-- R115 (derived by the spec): the waits of a rotation add up to `abs(steps) * delay_unit` microseconds. -/
def Obligations.RotationWaitsAddUp : Prop :=
  ∀ (n : Int) (o : OpState),
    totalWait (opExec (.rotate n) o).trace = totalWait o.trace + n.natAbs * o.delayUnit.toNat

/-- R114 (D14): the step count is the mathematical absolute value, also at the most negative operand; `steps_left`
takes one less without wrapping. -/
def Obligations.RotationCountIsExact : Prop :=
  ∀ n : Int, (Instr.rotate n).WellFormed →
    (∀ o : OpState, (opExec (.rotate n) o).trace.length = o.trace.length + 5 * n.natAbs) ∧
    (n ≠ 0 → ∀ (s t : State), exec (.rotate n) s = .next t →
      t.stepsLeft.toNat + 1 = n.natAbs ∧ t.stepsLeft.toNat ≤ 2147483647)

/-- R120 whole: the encoding; `delay_unit` alone is written, with the operand as given; no event; on the accepting edge
the command is complete and `busy` does not go high; the worked example. -/
def Obligations.SetSpeedRule : Prop :=
  (∀ d : Nat, (Instr.setSpeed d).WellFormed →
    (encode (.setSpeed d)).toNat = 0x300000000 + d ∧ decode (encode (.setSpeed d)) = .setSpeed d ∧
    (∀ o : OpState, opExec (.setSpeed d) o = ⟨o.phaseIndex, o.coilOut, BitVec.ofNat 32 d, o.trace⟩ ∧
      (opExec (.setSpeed d) o).delayUnit.toNat = d) ∧
    (∀ s : State, acceptedAt s = some (.setSpeed d) → ∃ t, step s = .next t ∧
      t.delayUnit.toNat = d ∧ t.busy = false ∧ t.cmdReady = true ∧ t.trace = s.trace)) ∧
  (∀ (p : PhaseIx) (c : Pattern),
    (opExec (.setSpeed 2500) ⟨p, c, 1000#32, []⟩).delayUnit = 2500#32 ∧
    (opExec .stepFwd (opExec (.setSpeed 2500) ⟨p, c, 1000#32, []⟩)).trace =
      applyEvents (phaseTable (p + 1#3)) ++ [.wait 2500])

/-- R121: every step of the commands accepted after a `SET_SPEED`, up to the next one, waits the new value, and the
events of the steps already completed stay. -/
def Obligations.NewDelayGovernsOnlyLaterSteps : Prop :=
  ∀ (d : Nat) (rest : List Instr) (o : OpState), (Instr.setSpeed d).WellFormed →
    (∀ i ∈ rest, ∀ d', i ≠ .setSpeed d') →
    ∃ later, (runCommands (.setSpeed d :: rest) o).trace = o.trace ++ later ∧ ∀ x, Event.wait x ∈ later → x = d

/-! ## The commands at the cycle level (45_cycle_fsm.md) -/

/-- R132, R133 (D13): `STEP_FWD` and `STEP_BWD` on the edge that accepts them, the whole next state. That the `WAIT`
enters the trace on this edge, with the four pin writes, is the model's choice (log entry 4). -/
def Obligations.AcceptedStepCommandsBeginAStep : Prop :=
  ∀ s : State,
    exec .stepFwd s = .next
      { s with
        phaseIndex := s.phaseIndex + 1#3
        coilOut    := phaseTable (s.phaseIndex + 1#3)
        fsm        := .run
        dir        := .fwd
        stepsLeft  := 0#32
        waitCnt    := s.delayUnit.toNat * s.params.cyclesPerUs
        trace      := s.trace ++ (applyEvents (phaseTable (s.phaseIndex + 1#3)) ++ [.wait s.delayUnit.toNat]) } ∧
    exec .stepBwd s = .next
      { s with
        phaseIndex := s.phaseIndex + 7#3
        coilOut    := phaseTable (s.phaseIndex + 7#3)
        fsm        := .run
        dir        := .bwd
        stepsLeft  := 0#32
        waitCnt    := s.delayUnit.toNat * s.params.cyclesPerUs
        trace      := s.trace ++ (applyEvents (phaseTable (s.phaseIndex + 7#3)) ++ [.wait s.delayUnit.toNat]) }

/-- R132, R133 (D13, D14): `ROTATE` on the edge that accepts it, the whole next state; `ROTATE 0` changes nothing.
That the first step's `WAIT` enters the trace on this edge is the model's choice (log entry 4). -/
def Obligations.AcceptedRotateBeginsItsFirstStep : Prop :=
  ∀ (n : Int) (s : State), (Instr.rotate n).WellFormed →
    (0 < n → ∃ left : Word, left.toNat = n.natAbs - 1 ∧ exec (.rotate n) s = .next
      { s with
        phaseIndex := s.phaseIndex + 1#3
        coilOut    := phaseTable (s.phaseIndex + 1#3)
        fsm        := .run
        dir        := .fwd
        stepsLeft  := left
        waitCnt    := s.delayUnit.toNat * s.params.cyclesPerUs
        trace      := s.trace ++ (applyEvents (phaseTable (s.phaseIndex + 1#3)) ++ [.wait s.delayUnit.toNat]) }) ∧
    (n < 0 → ∃ left : Word, left.toNat = n.natAbs - 1 ∧ exec (.rotate n) s = .next
      { s with
        phaseIndex := s.phaseIndex + 7#3
        coilOut    := phaseTable (s.phaseIndex + 7#3)
        fsm        := .run
        dir        := .bwd
        stepsLeft  := left
        waitCnt    := s.delayUnit.toNat * s.params.cyclesPerUs
        trace      := s.trace ++ (applyEvents (phaseTable (s.phaseIndex + 7#3)) ++ [.wait s.delayUnit.toNat]) }) ∧
    (n = 0 → exec (.rotate n) s = .next s)

/-- R133 (D25): `SET_SPEED` on the edge that accepts it, the whole next state. -/
def Obligations.AcceptedSetSpeedWritesTheDelay : Prop :=
  ∀ (d : Nat) (s : State), (Instr.setSpeed d).WellFormed →
    ∃ delay : Word, delay.toNat = d ∧ exec (.setSpeed d) s = .next { s with delayUnit := delay }

/-- The frame of `STEP_FWD`, `STEP_BWD` and `ROTATE` (R101, R102, R110, R133): beside the index, the coils and the
hidden registers that sequence the steps, nothing changes, and the trace only grows. There is no flag, no program
counter and no memory. -/
def Obligations.MovementCommandsFrame : Prop :=
  ∀ (i : Instr) (s t : State), (i = .stepFwd ∨ i = .stepBwd ∨ ∃ n, i = .rotate n) → exec i s = .next t →
    t.delayUnit = s.delayUnit ∧ t.params = s.params ∧ t.inputs = s.inputs ∧ ∃ events, t.trace = s.trace ++ events

/-- The frame of `SET_SPEED` (R120, R133): every register but `delay_unit` is unchanged, and so is the trace. -/
def Obligations.SetSpeedFrame : Prop :=
  ∀ (d : Nat) (s t : State), exec (.setSpeed d) s = .next t →
    t.phaseIndex = s.phaseIndex ∧ t.coilOut = s.coilOut ∧ t.fsm = s.fsm ∧ t.dir = s.dir ∧
    t.stepsLeft = s.stepsLeft ∧ t.waitCnt = s.waitCnt ∧ t.params = s.params ∧ t.inputs = s.inputs ∧ t.trace = s.trace

/-- A step runs the decoded command (R76, R131, R133): on an edge with `rst = 0` and `cmd_valid = 1` in `IDLE`, the edge
is the acceptance of the command the port carries; the edge also moves the inputs on by one. -/
def Obligations.AcceptingEdgeRunsTheDecodedCommand : Prop :=
  ∀ s : State, s.port.rst = false → s.port.cmdValid = true → s.fsm = .idle →
    step s = exec (decode (packWord s.port.cmdOp s.port.cmdArg)) { s with inputs := s.inputs.tail }

/-- The model's own way to present a command (log entry 6): the next step accepts exactly the placed word. -/
def Obligations.PlacedWordIsRunByTheNextStep : Prop :=
  ∀ (s : State) (w : CmdWord), step (s.withFetchWord 40 w.toNat) =
    exec (decode w) { s with fsm := .idle, waitCnt := 0, inputs := s.inputs.tail }

/-- R131: an edge in `IDLE` with `rst = 0` and nothing presented changes no register. -/
def Obligations.IdleEdgeChangesNothing : Prop :=
  ∀ s : State, s.port.rst = false → s.port.cmdValid = false → s.fsm = .idle →
    step s = .next { s with inputs := s.inputs.tail }

/-- R132, R134 (D13): an edge in `RUN` with `rst = 0` counts the wait down, or begins the next step in the direction
`dir`, or returns to `IDLE`; the whole next state in each case. That the `WAIT` of a step enters the trace on the edge
that begins it is the model's choice (log entry 4). -/
def Obligations.ProgressWhileRunning : Prop :=
  ∀ s : State, s.port.rst = false → s.fsm = .run →
    (s.waitCnt ≠ 0 → step s = .next { s with waitCnt := s.waitCnt - 1, inputs := s.inputs.tail }) ∧
    (s.waitCnt = 0 → s.stepsLeft ≠ 0#32 → ∃ p : PhaseIx,
      p = (match s.dir with | .fwd => s.phaseIndex + 1#3 | .bwd => s.phaseIndex + 7#3) ∧
      step s = .next
        { s with
          phaseIndex := p
          coilOut    := phaseTable p
          stepsLeft  := s.stepsLeft - 1#32
          waitCnt    := s.delayUnit.toNat * s.params.cyclesPerUs
          inputs     := s.inputs.tail
          trace      := s.trace ++ (applyEvents (phaseTable p) ++ [.wait s.delayUnit.toNat]) }) ∧
    (s.waitCnt = 0 → s.stepsLeft = 0#32 → step s = .next { s with fsm := .idle, inputs := s.inputs.tail })

/-! ## Reset (10_state.md R36, 70_reset_and_hazards.md) -/

/-- R36, R170, R172, R173 (D2, D6 to D8, D18): an edge with `rst = 1` loads all seven registers, from every state,
in the middle of a command too, whatever is presented, and appends no event. -/
def Obligations.ResetEdgeLoadsTheResetValues : Prop :=
  ∀ s : State, s.port.rst = true → step s = .next
    { phaseIndex := 0#3, coilOut := 0x1#4, delayUnit := s.params.delayInit, fsm := .idle, dir := .fwd,
      stepsLeft := 0#32, waitCnt := 0, params := s.params, inputs := s.inputs.tail, trace := s.trace }

/-- R36 (D2, D6, D7, D8): the state after reset; `delay_unit` holds the OPEN parameter `DELAY_INIT`. The empty inputs
and trace are the model's choice (log entries 2 and 4). -/
def Obligations.ResetStateHoldsTheResetValues : Prop :=
  State.reset.phaseIndex = 0#3 ∧ State.reset.coilOut = 0x1#4 ∧
  State.reset.delayUnit = State.reset.params.delayInit ∧ State.reset.fsm = .idle ∧ State.reset.fsm.code = 0#1 ∧
  State.reset.dir = .fwd ∧ State.reset.dir.code = 0#1 ∧
  State.reset.stepsLeft = 0#32 ∧ State.reset.waitCnt = 0 ∧ State.reset.cmdReady = true ∧
  1 ≤ State.reset.params.cyclesPerUs ∧ State.reset.inputs = [] ∧ State.reset.trace = []

/-- R172 (D18): after a reset in whatever state the block behaves for ever like one fresh from reset, but that the trace
goes on from the events there were: nothing of the discarded command is left. -/
def Obligations.ResetLeavesNoMemoryOfTheCommand : Prop :=
  ∀ (s : State) (p : PortIn) (ins : List PortIn) (n : Nat), s.inputs = p :: ins → p.rst = true →
    ∃ u, runEdges n (State.launch s.params ins) = .next u ∧
      runEdges (n + 1) s = .next { u with trace := s.trace ++ u.trace }

/-! ## Ports, priority, faults -/

/-- R35 (D5): every output is a function of registers; `cmd_ready = not busy`; no input of the same cycle is seen. -/
def Obligations.OutputsFollowTheRegisters : Prop :=
  ∀ (s : State) (ins : List PortIn),
    s.outputs.coilOut = s.coilOut ∧ s.outputs.phase = s.phaseIndex ∧
    (s.outputs.busy = true ↔ s.fsm = .run) ∧ (s.outputs.cmdReady = true ↔ s.fsm = .idle) ∧
    s.outputs.cmdReady = !s.outputs.busy ∧
    ({ s with inputs := ins } : State).outputs = s.outputs

/-- R76, R137, R153 (D5, D19): while the block is busy, or nothing is presented, the command lines have no effect: two
sets of levels with the same `rst` give the same next state. With `rst = 1` nothing else matters either. -/
def Obligations.CommandLinesMatterOnlyWhenAccepted : Prop :=
  ∀ (s : State) (p q : PortIn) (ins : List PortIn), p.rst = q.rst →
    (s.fsm = .run ∨ p.rst = true ∨ (p.cmdValid = false ∧ q.cmdValid = false)) →
    step { s with inputs := p :: ins } = step { s with inputs := q :: ins }

/-- R150, R74: no edge stops, and no command stops on any operand. -/
def Obligations.NothingEverStops : Prop :=
  (∀ s : State, ∃ t, step s = .next t) ∧ ∀ (i : Instr) (s : State), ∃ t, exec i s = .next t

/-! ## Invariants -/

/-- The invariant holds at reset (R27, R36, R37). -/
def Obligations.InvariantHoldsAtReset : Prop := State.reset.Inv

/-- R27, R32, R33, R37 (derived by the spec; C1): every edge keeps the invariant, whatever the inputs. -/
def Obligations.EveryEdgeKeepsTheInvariant : Prop :=
  ∀ s t : State, s.Inv → step s = .next t → t.Inv

/-- R27, R37 (derived by the spec): every reachable state shows the row of its index, one of eight patterns, never all
low, and waits for nothing when idle. -/
def Obligations.ReachableStatesShowTheirPhase : Prop :=
  ∀ s : State, Reachable s →
    s.coilOut = phaseTable s.phaseIndex ∧ s.coilOut ∈ shownPatterns ∧ s.coilOut ≠ 0#4 ∧
    (s.fsm = .idle → s.waitCnt = 0)

/-- R33, R139 (derived by the spec): `wait_cnt` fits any register of `WAIT_W` bits as R9 asks, and bit 31 of
`steps_left` is 0. -/
def Obligations.HiddenCountersFitTheirWidths : Prop :=
  ∀ (s : State) (width : Nat), s.Inv → (2 ^ 32 - 1) * s.params.cyclesPerUs < 2 ^ width →
    s.waitCnt < 2 ^ width ∧ s.stepsLeft.getLsbD 31 = false

/-- The parameters are fixed and the inputs are the environment's (log entries 2 and 3): an edge keeps the first and
moves the second on by one. -/
def Obligations.EdgesKeepParametersAndConsumeOneInput : Prop :=
  ∀ s t : State, step s = .next t → t.params = s.params ∧ t.inputs = s.inputs.tail

/-- R58 (derived by the spec): without a reset an edge flips at most one coil. -/
def Obligations.AnEdgeFlipsAtMostOneCoil : Prop :=
  ∀ s t : State, s.Inv → s.port.rst = false → step s = .next t → atMostOneFlip s.coilOut t.coilOut

/-- R28, R92, R94, R95, R140: an edge without reset either leaves index, coils and trace alone, or begins a step: the
index moves by one, the coils take the whole new row, and exactly the step's five events enter the trace. A reset
appends nothing. That the `WAIT`, which occupies the edges after this one (R140), enters the trace on it is the model's
choice (log entry 4). -/
def Obligations.PinsAreWrittenOnlyWhenAStepBegins : Prop :=
  ∀ s t : State, step s = .next t →
    (s.port.rst = true → t.trace = s.trace) ∧
    (s.port.rst = false →
      (t.phaseIndex = s.phaseIndex ∧ t.coilOut = s.coilOut ∧ t.trace = s.trace) ∨
      ((t.phaseIndex = s.phaseIndex + 1#3 ∨ t.phaseIndex = s.phaseIndex + 7#3) ∧
       t.coilOut = phaseTable t.phaseIndex ∧ t.fsm = .run ∧ t.waitCnt = waitCycles s.delayUnit s.params ∧
       t.trace = s.trace ++ (applyEvents (phaseTable t.phaseIndex) ++ [.wait s.delayUnit.toNat])))

/-- R23, R28: `delay_unit` is written by `SET_SPEED` and reset only: on any other edge it keeps its value. -/
def Obligations.OnlySetSpeedAndResetWriteTheDelay : Prop :=
  ∀ s t : State, step s = .next t → t.delayUnit ≠ s.delayUnit →
    s.port.rst = true ∨ ∃ d, acceptedAt s = some (.setSpeed d) ∧ t.delayUnit.toNat = d

/-- R13: the trace is an observation, not a register: what an edge does to everything else, and the events it appends,
do not depend on the trace so far. -/
def Obligations.TheTraceIsOnlyObserved : Prop :=
  ∀ (s : State) (earlier : List Event), ∃ (t : State) (events : List Event),
    step s = .next { t with trace := s.trace ++ events } ∧
    step { s with trace := earlier } = .next { t with trace := earlier ++ events }

/-! ## Time (45_cycle_fsm.md section 2, 70_reset_and_hazards.md section 4) -/

/-- R135 (derived by the spec, from D12 and D13): from the edge that begins a step on, the wait counts down from `T`,
one each edge, and nothing else changes: the pattern is held for at least `delay_unit` microseconds. -/
def Obligations.AStepHoldsItsPatternForItsWait : Prop :=
  ∀ (d : Dir) (s : State) (k : Nat), (beginStep d s).noReset → k ≤ waitCycles s.delayUnit s.params →
    runEdges k (beginStep d s) = .next
      { beginStep d s with waitCnt := waitCycles s.delayUnit s.params - k, inputs := s.inputs.drop k }

/-- R185, R186, R188 (derived by the spec, from D13 and D25): with `rst = 0` throughout, a command of `n` steps keeps
the block busy for exactly `n * (T + 1)` cycles from the accepting edge on, its steps begin `T + 1` edges apart, and
the block is ready right after; with no step, it is ready on the next edge. That the trace then holds the `WAIT` of the
step still in progress is the model's choice (log entry 4). -/
def Obligations.BusyTimeOfEveryCommand : Prop :=
  ∀ (s : State) (i : Instr), s.noReset → acceptedAt s = some i →
    (∀ k < stepsOf i * (waitCycles s.delayUnit s.params + 1),
      ∃ t, runEdges (k + 1) s = .next t ∧ t.busy = true ∧
        t.op = repeatStep (k / (waitCycles s.delayUnit s.params + 1) + 1) (dirOf i) s.op) ∧
    ∃ t, runEdges (stepsOf i * (waitCycles s.delayUnit s.params + 1) + 1) s = .next t ∧ t.cmdReady = true

/-- R138 (derived by the spec): a busy block becomes idle after `wait_cnt + 1 + steps_left * (T + 1)` edges without
reset, at most `(steps_left + 1) * (T + 1)`; each edge leaves `RUN` or decreases `(steps_left, wait_cnt)`. -/
def Obligations.EveryBusyStateReturnsToIdle : Prop :=
  ∀ s : State, s.Inv → s.noReset → s.fsm = .run →
    (∃ n t, n = s.waitCnt + 1 + s.stepsLeft.toNat * (waitCycles s.delayUnit s.params + 1) ∧
      n ≤ (s.stepsLeft.toNat + 1) * (waitCycles s.delayUnit s.params + 1) ∧
      runEdges n s = .next t ∧ t.fsm = .idle) ∧
    ∃ t, step s = .next t ∧
      (t.fsm = .idle ∨ t.stepsLeft.toNat < s.stepsLeft.toNat ∨
       (t.stepsLeft = s.stepsLeft ∧ t.waitCnt < s.waitCnt))

/-- R189 (derived by the spec): after a change of the coils the next change comes at least `T + 1` edges later. -/
def Obligations.CoilChangesAreAStepApart : Prop :=
  ∀ (s t u : State) (k : Nat), s.noReset → step s = .next t → t.coilOut ≠ s.coilOut →
    k ≤ waitCycles s.delayUnit s.params → runEdges k t = .next u → u.coilOut = t.coilOut

/-- R187 (derived by the spec): a step command presented on every edge is accepted on every `T + 2`-nd edge: among the
first `n` edges, the first and then every `(T + 2)`-nd. -/
def Obligations.BackToBackStepsAreSpaced : Prop :=
  ∀ (s : State) (w : CmdWord) (n : Nat), s.fsm = .idle → (decode w = .stepFwd ∨ decode w = .stepBwd) →
    s.inputs = List.replicate n (PortIn.present w) →
    acceptedRun n s = List.replicate
      ((n + waitCycles s.delayUnit s.params + 1) / (waitCycles s.delayUnit s.params + 2)) (decode w)

/-- R140, R186 (derived by the spec and D22, from D13): the time stamps of a command's events. Its `j`-th step, counted
from 0, begins on edge `e + j * (T + 1)`, `e` being the accepting edge; its four pin writes stand on that edge, and its
`WAIT` begins there (log entry 4). A command with no step stamps nothing. -/
def Obligations.EventsStandOnTheEdgesOfTheirSteps : Prop :=
  ∀ (s : State) (i : Instr) (e : Nat), s.noReset → acceptedAt s = some i →
    timeline e (stepsOf i * (waitCycles s.delayUnit s.params + 1) + 1) s =
      (List.range (stepsOf i)).flatMap fun (j : Nat) =>
        (stepEvents (repeatStep (j + 1) (dirOf i) s.op).phaseIndex s.delayUnit).map
          fun event => (e + j * (waitCycles s.delayUnit s.params + 1), event)

/-- R14 (D22), R185, R186, R188: the run of one command ends with the edge after its last wait, not earlier. -/
def Obligations.RunOfOneCommandEndsAfterItsLastWait : Prop :=
  ∀ (s : State) (i : Instr), s.noReset → acceptedAt s = some i →
    endOfRun [i] (stepsOf i * (waitCycles s.delayUnit s.params + 1) + 1) s

/-- R161, R184: an idle block with nothing presented keeps every register, its coils driven, for as long as that lasts
(coil patterns as D26 has it). -/
def Obligations.IdleBlockKeepsItsPattern : Prop :=
  ∀ (s : State) (n : Nat), s.fsm = .idle → (∀ p ∈ s.inputs, p.rst = false ∧ p.cmdValid = false) →
    runEdges n s = .next { s with inputs := s.inputs.drop n }

/-! ## The two levels (45_cycle_fsm.md section 3) and the host -/

/-- R77, R113, R114, R133, R134: with `rst = 0` throughout, every accepted command runs to completion and then the
architectural registers and the trace are what the operation level gives, whatever else the host does meanwhile. -/
def Obligations.EveryCommandReachesItsResult : Prop :=
  ∀ (s : State) (i : Instr), s.noReset → acceptedAt s = some i →
    ∃ t, runEdges (stepsOf i * (waitCycles s.delayUnit s.params + 1) + 1) s = .next t ∧ t.fsm = .idle ∧
      t.op = opExec i s.op

/-- R141 (derived by the spec): the cycle level refines the operation level. (a), (b): whenever the block is idle,
registers and trace are those after the commands accepted so far, in order. (c): while it is busy, they are those after
the earlier commands and the steps begun of the current one, that is all but the `steps_left` still to begin. Idle
gaps, commands presented while busy and the levels of unaccepted lines play no part. R141 (c) speaks of index and coils
only; that the trace, too, then holds the step in progress whole, with its `WAIT`, is the model's choice (log entry 4). -/
def Obligations.CycleLevelRefinesOperationLevel : Prop :=
  ∀ (s : State) (n : Nat), s.fsm = .idle → s.noReset →
    ∃ t, runEdges n s = .next t ∧
      (t.fsm = .idle → t.op = runCommands (acceptedRun n s) s.op) ∧
      (t.fsm = .run → ∃ done i, acceptedRun n s = done ++ [i] ∧ t.stepsLeft.toNat < stepsOf i ∧
        t.op = repeatStep (stepsOf i - t.stepsLeft.toNat) (dirOf i) (runCommands done s.op))

/-- R76, R182: a host that holds a command while the block is busy gets it accepted on the first edge that finds the
block idle, neither lost nor earlier. -/
def Obligations.HeldCommandIsAcceptedAtTheFirstIdleEdge : Prop :=
  ∀ (s : State) (i : Instr) (acts : List HostAct), s.Inv → s.fsm = .run → i.WellFormed →
    ∃ t, drive (s.waitCnt + 1 + s.stepsLeft.toNat * (waitCycles s.delayUnit s.params + 1)) (.command i :: acts) s
        = .next t ∧
      t.fsm = .idle ∧ t.delayUnit = s.delayUnit ∧
      drive (s.waitCnt + 1 + s.stepsLeft.toNat * (waitCycles s.delayUnit s.params + 1) + 1) (.command i :: acts) s
        = exec i { t with inputs := [] }

/-- R80 (D20): in a listing, `PAUSE t` on an idle block lets at least `t` microseconds of edges pass with nothing
presented and no register changed; `RESET` is one edge with `rst = 1`. The edge count of a pause is the model's choice
(log entry 8), and so is that the reset edge is the very next one (log entry 13). -/
def Obligations.PauseAndResetOfAListing : Prop :=
  ∀ (s : State) (acts : List HostAct) (t m : Nat),
    (s.fsm = .idle →
      drive (t * s.params.cyclesPerUs + 1 + m) (actOf s.params (.pause t) :: acts) s =
        drive m acts { s with inputs := [] }) ∧
    drive (1 + m) (actOf s.params .reset :: acts) s = drive m acts (resetRegisters { s with inputs := [] })
end

