-- ==== Sys2Proof/Laws/Decode.lean ====
section
/-! SUPPORT. The fields of a command word and what the decoder reads from each opcode. -/

namespace Sys2Proof

@[simp] theorem opOf_packWord (op : Opcode) (arg : Word) : opOf (packWord op arg) = op := by
  simp only [opOf, packWord]
  ext k hk
  simp only [BitVec.getElem_extractLsb']
  rw [BitVec.getLsbD_append]
  have : ¬ 32 + k < 32 := by omega
  simp [this, BitVec.getLsbD_eq_getElem hk]

@[simp] theorem argOf_packWord (op : Opcode) (arg : Word) : argOf (packWord op arg) = arg := by
  simp only [argOf, packWord]
  ext k hk
  simp only [BitVec.getElem_extractLsb']
  rw [BitVec.getLsbD_append]
  simp [hk]

/-- A word is its two fields (R70). -/
theorem packWord_fields (w : CmdWord) : packWord (opOf w) (argOf w) = w := by
  simp only [opOf, argOf, packWord]
  ext k hk
  rw [← BitVec.getLsbD_eq_getElem, BitVec.getLsbD_append]
  by_cases h : k < 32
  · simp [h, BitVec.getLsbD_eq_getElem hk]
  · have : k - 32 < 2 := by omega
    have e : 32 + (k - 32) = k := by omega
    simp [h, this, e, BitVec.getLsbD_eq_getElem hk]

/-- The number of a word from its fields (R79). -/
theorem packWord_toNat (op : Opcode) (arg : Word) : (packWord op arg).toNat = op.toNat * 2 ^ 32 + arg.toNat := by
  simp only [packWord, BitVec.toNat_append]
  rw [← Nat.shiftLeft_add_eq_or_of_lt arg.isLt, Nat.shiftLeft_eq]

/-- Every opcode is one of the four (R74). -/
theorem opcode_cases (op : Opcode) : op = codeStepFwd ∨ op = codeStepBwd ∨ op = codeRotate ∨ op = codeSetSpeed := by
  revert op; decide

/-- Every command the decoder answers has an operand that its field can hold (R72). -/
theorem decode_rotate_range (v : Word) : -2147483648 ≤ sext32 v ∧ sext32 v ≤ 2147483647 := by
  have h1 := BitVec.toInt_lt (x := v)
  have h2 := BitVec.le_toInt (x := v)
  simp only [sext32]
  omega

namespace Machine

/-- The port carries the presented word unchanged (R70). -/
@[simp] theorem word_present (w : CmdWord) : (PortIn.present w).word = w := packWord_fields w

end Machine

end Sys2Proof
end

