-- ==== Sys2Proof/Laws/State.lean ====
section
/-! SUPPORT. One lemma per field of State per update, true by rfl, so that no later proof unfolds a record update. -/

namespace Sys2Proof.Machine

variable (s : State)

/-! ## advance -/
@[simp] theorem advance_phaseIndex  : (s.advance).phaseIndex = s.phaseIndex := rfl
@[simp] theorem advance_coilOut  : (s.advance).coilOut = s.coilOut := rfl
@[simp] theorem advance_delayUnit  : (s.advance).delayUnit = s.delayUnit := rfl
@[simp] theorem advance_fsm  : (s.advance).fsm = s.fsm := rfl
@[simp] theorem advance_dir  : (s.advance).dir = s.dir := rfl
@[simp] theorem advance_stepsLeft  : (s.advance).stepsLeft = s.stepsLeft := rfl
@[simp] theorem advance_waitCnt  : (s.advance).waitCnt = s.waitCnt := rfl
@[simp] theorem advance_params  : (s.advance).params = s.params := rfl
@[simp] theorem advance_inputs  : (s.advance).inputs = s.inputs.tail := rfl
@[simp] theorem advance_trace  : (s.advance).trace = s.trace := rfl

/-! ## beginStep (R132) -/
@[simp] theorem beginStep_phaseIndex (d : Dir) : (beginStep d s).phaseIndex = turn d s.phaseIndex := rfl
@[simp] theorem beginStep_coilOut (d : Dir) : (beginStep d s).coilOut = phaseTable (turn d s.phaseIndex) := rfl
@[simp] theorem beginStep_delayUnit (d : Dir) : (beginStep d s).delayUnit = s.delayUnit := rfl
@[simp] theorem beginStep_fsm (d : Dir) : (beginStep d s).fsm = .run := rfl
@[simp] theorem beginStep_dir (d : Dir) : (beginStep d s).dir = s.dir := rfl
@[simp] theorem beginStep_stepsLeft (d : Dir) : (beginStep d s).stepsLeft = s.stepsLeft := rfl
@[simp] theorem beginStep_waitCnt (d : Dir) : (beginStep d s).waitCnt = waitCycles s.delayUnit s.params := rfl
@[simp] theorem beginStep_params (d : Dir) : (beginStep d s).params = s.params := rfl
@[simp] theorem beginStep_inputs (d : Dir) : (beginStep d s).inputs = s.inputs := rfl
@[simp] theorem beginStep_trace (d : Dir) : (beginStep d s).trace = s.trace ++ stepEvents (turn d s.phaseIndex) s.delayUnit := rfl

/-! ## startMove (R133) -/
@[simp] theorem startMove_phaseIndex (d : Dir) (more : Word) : (startMove d more s).phaseIndex = turn d s.phaseIndex := rfl
@[simp] theorem startMove_coilOut (d : Dir) (more : Word) : (startMove d more s).coilOut = phaseTable (turn d s.phaseIndex) := rfl
@[simp] theorem startMove_delayUnit (d : Dir) (more : Word) : (startMove d more s).delayUnit = s.delayUnit := rfl
@[simp] theorem startMove_fsm (d : Dir) (more : Word) : (startMove d more s).fsm = .run := rfl
@[simp] theorem startMove_dir (d : Dir) (more : Word) : (startMove d more s).dir = d := rfl
@[simp] theorem startMove_stepsLeft (d : Dir) (more : Word) : (startMove d more s).stepsLeft = more := rfl
@[simp] theorem startMove_waitCnt (d : Dir) (more : Word) : (startMove d more s).waitCnt = waitCycles s.delayUnit s.params := rfl
@[simp] theorem startMove_params (d : Dir) (more : Word) : (startMove d more s).params = s.params := rfl
@[simp] theorem startMove_inputs (d : Dir) (more : Word) : (startMove d more s).inputs = s.inputs := rfl
@[simp] theorem startMove_trace (d : Dir) (more : Word) : (startMove d more s).trace = s.trace ++ stepEvents (turn d s.phaseIndex) s.delayUnit := rfl

/-! ## resetRegisters (R36, R170) -/
@[simp] theorem resetRegisters_phaseIndex  : (resetRegisters s).phaseIndex = Config.phaseInit := rfl
@[simp] theorem resetRegisters_coilOut  : (resetRegisters s).coilOut = phaseTable Config.phaseInit := rfl
@[simp] theorem resetRegisters_delayUnit  : (resetRegisters s).delayUnit = s.params.delayInit := rfl
@[simp] theorem resetRegisters_fsm  : (resetRegisters s).fsm = .idle := rfl
@[simp] theorem resetRegisters_dir  : (resetRegisters s).dir = .fwd := rfl
@[simp] theorem resetRegisters_stepsLeft  : (resetRegisters s).stepsLeft = 0#32 := rfl
@[simp] theorem resetRegisters_waitCnt  : (resetRegisters s).waitCnt = 0 := rfl
@[simp] theorem resetRegisters_params  : (resetRegisters s).params = s.params := rfl
@[simp] theorem resetRegisters_inputs  : (resetRegisters s).inputs = s.inputs := rfl
@[simp] theorem resetRegisters_trace  : (resetRegisters s).trace = s.trace := rfl

/-! ## withPort -/
@[simp] theorem withPort_phaseIndex (p : PortIn) : (s.withPort p).phaseIndex = s.phaseIndex := rfl
@[simp] theorem withPort_coilOut (p : PortIn) : (s.withPort p).coilOut = s.coilOut := rfl
@[simp] theorem withPort_delayUnit (p : PortIn) : (s.withPort p).delayUnit = s.delayUnit := rfl
@[simp] theorem withPort_fsm (p : PortIn) : (s.withPort p).fsm = .idle := rfl
@[simp] theorem withPort_dir (p : PortIn) : (s.withPort p).dir = s.dir := rfl
@[simp] theorem withPort_stepsLeft (p : PortIn) : (s.withPort p).stepsLeft = s.stepsLeft := rfl
@[simp] theorem withPort_waitCnt (p : PortIn) : (s.withPort p).waitCnt = 0 := rfl
@[simp] theorem withPort_params (p : PortIn) : (s.withPort p).params = s.params := rfl
@[simp] theorem withPort_inputs (p : PortIn) : (s.withPort p).inputs = p :: s.inputs.tail := rfl
@[simp] theorem withPort_trace (p : PortIn) : (s.withPort p).trace = s.trace := rfl

/-! ## launch -/
@[simp] theorem launch_phaseIndex (p : Params) (ins : List PortIn) : (State.launch p ins).phaseIndex = Config.phaseInit := rfl
@[simp] theorem launch_coilOut (p : Params) (ins : List PortIn) : (State.launch p ins).coilOut = phaseTable Config.phaseInit := rfl
@[simp] theorem launch_delayUnit (p : Params) (ins : List PortIn) : (State.launch p ins).delayUnit = p.delayInit := rfl
@[simp] theorem launch_fsm (p : Params) (ins : List PortIn) : (State.launch p ins).fsm = .idle := rfl
@[simp] theorem launch_dir (p : Params) (ins : List PortIn) : (State.launch p ins).dir = .fwd := rfl
@[simp] theorem launch_stepsLeft (p : Params) (ins : List PortIn) : (State.launch p ins).stepsLeft = 0#32 := rfl
@[simp] theorem launch_waitCnt (p : Params) (ins : List PortIn) : (State.launch p ins).waitCnt = 0 := rfl
@[simp] theorem launch_params (p : Params) (ins : List PortIn) : (State.launch p ins).params = p := rfl
@[simp] theorem launch_inputs (p : Params) (ins : List PortIn) : (State.launch p ins).inputs = ins := rfl
@[simp] theorem launch_trace (p : Params) (ins : List PortIn) : (State.launch p ins).trace = [] := rfl

/-! ## What the operation level sees -/
@[simp] theorem op_phaseIndex : s.op.phaseIndex = s.phaseIndex := rfl
@[simp] theorem op_coilOut : s.op.coilOut = s.coilOut := rfl
@[simp] theorem op_delayUnit : s.op.delayUnit = s.delayUnit := rfl
@[simp] theorem op_trace : s.op.trace = s.trace := rfl
@[simp] theorem op_advance : s.advance.op = s.op := rfl

/-! ## The port -/
@[simp] theorem withPort_port (p : PortIn) : (s.withPort p).port = p := rfl
@[simp] theorem quiet_rst : PortIn.quiet.rst = false := rfl
@[simp] theorem quiet_cmdValid : PortIn.quiet.cmdValid = false := rfl
@[simp] theorem present_rst (w : CmdWord) : (PortIn.present w).rst = false := rfl
@[simp] theorem present_cmdValid (w : CmdWord) : (PortIn.present w).cmdValid = true := rfl

end Sys2Proof.Machine
end

