-- ==== Sys2Proof/Laws/Ops.lean ====
section
/-! SUPPORT. What each shared operation can do, said once. -/

namespace Sys2Proof.Machine

/-- `run()` (R134) does one of three things. -/
theorem progress_cases (s : State) :
    (s.waitCnt ≠ 0 ∧ progress s = { s with waitCnt := s.waitCnt - 1 }) ∨
    (s.waitCnt = 0 ∧ s.stepsLeft ≠ 0#32 ∧ progress s = beginStep s.dir { s with stepsLeft := s.stepsLeft - 1#32 }) ∨
    (s.waitCnt = 0 ∧ s.stepsLeft = 0#32 ∧ progress s = { s with fsm := .idle }) := by
  unfold progress
  by_cases hw : s.waitCnt = 0
  · by_cases hs : s.stepsLeft = 0#32
    · exact .inr (.inr ⟨hw, hs, by simp [hw, hs]⟩)
    · exact .inr (.inl ⟨hw, hs, by simp [hw, hs]⟩)
  · exact .inl ⟨hw, by simp [hw]⟩

/-- No command's acceptance stops, and it does one of three things (R133, R150). -/
theorem exec_cases (i : Instr) (s : State) :
    (∃ more : Word, exec i s = .next (startMove (dirOf i) more s) ∧ 0 < stepsOf i ∧
      more = BitVec.ofNat 32 (stepsOf i - 1)) ∨
    (i = .rotate 0 ∧ exec i s = .next s) ∨
    (∃ delay, i = .setSpeed delay ∧ exec i s = .next { s with delayUnit := delayOperand delay }) := by
  cases i with
  | stepFwd => exact .inl ⟨0#32, rfl, by decide, rfl⟩
  | stepBwd => exact .inl ⟨0#32, rfl, by decide, rfl⟩
  | rotate n =>
    by_cases h : n = 0
    · exact .inr (.inl ⟨by rw [h], by simp [exec, execRotate, h]⟩)
    · exact .inl ⟨stepsAfterFirst n, by simp [exec, execRotate, h, dirOf], by simp only [stepsOf]; omega, rfl⟩
  | setSpeed d => exact .inr (.inr ⟨d, rfl, rfl⟩)

/-- The row of the table that a forward or backward step reads differs from the row before it in one coil (R91). -/
theorem turn_flips_one_coil (d : Dir) (p : PhaseIx) :
    ∃ k : Fin 4, phaseTable p ^^^ phaseTable (turn d p) = 1#4 <<< k.val := by
  cases d <;> revert p <;> decide

end Sys2Proof.Machine
end

