-- ==== Sys2Proof/Laws/Operation.lean ====
section
/-! SUPPORT. The operation level: a written row is the row, and the closed form of one step. -/

namespace Sys2Proof.Machine

/-- Four pin writes of a row leave exactly the row on the coils (R92). -/
theorem writeRow_eq (p : Pattern) (o : OpState) :
    writeRow p o = { o with coilOut := p, trace := o.trace ++ applyEvents p } := by
  have h : ∀ c q : Pattern, setCoil (setCoil (setCoil (setCoil c 0 (q.getLsbD 0)) 1 (q.getLsbD 1)) 2 (q.getLsbD 2)) 3
      (q.getLsbD 3) = q := by decide
  simp only [writeRow, pinWrite, applyEvents, h, List.append_assoc, List.cons_append, List.nil_append]

/-- `step(d)` in closed form (R100). -/
theorem microStep_eq (d : Dir) (o : OpState) :
    microStep d o =
      { o with
        phaseIndex := turn d o.phaseIndex
        coilOut    := phaseTable (turn d o.phaseIndex)
        trace      := o.trace ++ stepEvents (turn d o.phaseIndex) o.delayUnit } := by
  simp [microStep, applyCurrentPhase, writeRow_eq, waitFor, stepEvents]

/-- The cycle level begins a step as the operation level performs it (R132, R141). -/
@[simp] theorem beginStep_op (d : Dir) (s : State) : (beginStep d s).op = microStep d s.op := by
  rw [microStep_eq]; rfl

/-- Repeating `m + n` times is repeating `m` times and then `n` times. -/
theorem repeatStep_add (m n : Nat) (d : Dir) (o : OpState) :
    repeatStep (m + n) d o = repeatStep n d (repeatStep m d o) := by
  induction m generalizing o with
  | zero => simp [repeatStep]
  | succ m ih => rw [Nat.succ_add]; exact ih _

/-- Repeated steps in closed form: the index, the coils, the delay, the events (R110). -/
theorem repeatStep_fields (n : Nat) (d : Dir) (o : OpState) :
    (repeatStep n d o).phaseIndex = o.phaseIndex + BitVec.ofNat 3 n * d.increment ∧
    (repeatStep n d o).coilOut = (if n = 0 then o.coilOut else phaseTable (repeatStep n d o).phaseIndex) ∧
    (repeatStep n d o).delayUnit = o.delayUnit ∧
    (repeatStep n d o).trace = o.trace ++
      (List.range n).flatMap fun (j : Nat) =>
        stepEvents (o.phaseIndex + BitVec.ofNat 3 (j + 1) * d.increment) o.delayUnit := by
  induction n generalizing o with
  | zero => simp [repeatStep]
  | succ n ih =>
    obtain ⟨h1, h2, h3, h4⟩ := ih (microStep d o)
    simp only [repeatStep]
    rw [microStep_eq] at *
    simp only at h1 h2 h3 h4
    have e : ∀ m : Nat, turn d o.phaseIndex + BitVec.ofNat 3 m * d.increment =
        o.phaseIndex + BitVec.ofNat 3 (m + 1) * d.increment := by
      intro m
      simp only [turn, BitVec.ofNat_add]
      rw [BitVec.add_mul, BitVec.add_assoc, BitVec.add_comm d.increment]
      simp
    refine ⟨by rw [h1, e], ?_, h3, ?_⟩
    · rw [h2]
      simp only [Nat.add_eq_zero_iff, one_ne_zero, and_false, if_false]
      split
      · subst n; simp [repeatStep]
      · rfl
    · rw [h4, List.range_succ_eq_map, List.flatMap_cons, List.flatMap_map]
      simp only [List.append_assoc, e]
      congr 2
      simp [turn]

end Sys2Proof.Machine
end

