-- ==== Sys2Proof/Laws/PerInstr.lean ====
section
/-! SUPPORT. A statement about every command as syntax: its word lies in the row of spec/opcode_table.json that bears
its mnemonic. -/

namespace Sys2Proof.Laws.OpcodeRowOfWord

/-- Some row of the opcode table bears the command's mnemonic and covers its word (30_encoding.md R72). -/
def Statement (i : Instr) : Prop := ∃ r ∈ opcodeTable, r.mnemonic = i.mnemonic ∧ r.covers (encode i) = true

/-- The bits that the mask `0x3_0000_0000` keeps are the opcode field. -/
theorem packWord_masked (op : Opcode) (arg : Word) : packWord op arg &&& 0x300000000#34 = packWord op 0#32 := by
  have h : ∀ w : CmdWord, w &&& 0x300000000#34 = packWord (opOf w) 0#32 := by
    intro w
    apply BitVec.eq_of_getLsbD_eq
    intro k hk
    rw [packWord, opOf, BitVec.getLsbD_append, BitVec.getLsbD_and, BitVec.getLsbD_extractLsb']
    by_cases h : k < 32
    · interval_cases k <;> simp
    · have : k = 32 ∨ k = 33 := by omega
      rcases this with rfl | rfl <;> simp
  rw [h, opOf_packWord]

theorem stepFwd : Statement .stepFwd := ⟨⟨"STEP_FWD", 0x000000000#34, 0x300000000#34⟩, by simp [opcodeTable], rfl, by decide⟩

theorem stepBwd : Statement .stepBwd := ⟨⟨"STEP_BWD", 0x100000000#34, 0x300000000#34⟩, by simp [opcodeTable], rfl, by decide⟩

theorem rotate (steps : Int) : Statement (.rotate steps) :=
  ⟨⟨"ROTATE", 0x200000000#34, 0x300000000#34⟩, by simp [opcodeTable], rfl, by
    simp only [OpcodeRow.covers, encode, packWord_masked]; decide⟩

theorem setSpeed (delay : Nat) : Statement (.setSpeed delay) :=
  ⟨⟨"SET_SPEED", 0x300000000#34, 0x300000000#34⟩, by simp [opcodeTable], rfl, by
    simp only [OpcodeRow.covers, encode, packWord_masked]; decide⟩

end Sys2Proof.Laws.OpcodeRowOfWord
end

