-- ==== Sys2Proof/Laws/Step.lean ====
section
/-! SUPPORT. What one edge can do, said once: every invariant is derived from this. -/

namespace Sys2Proof.Machine

/-- The four kinds of edge (R131). -/
theorem step_cases {s t : State} (h : step s = .next t) :
    (s.port.rst = true ∧ t = resetRegisters s.advance) ∨
    (s.port.rst = false ∧ s.fsm = .run ∧ t = progress s.advance) ∨
    (s.port.rst = false ∧ s.fsm = .idle ∧ s.port.cmdValid = false ∧ t = s.advance) ∨
    (s.port.rst = false ∧ s.fsm = .idle ∧ s.port.cmdValid = true ∧ exec (decode s.port.word) s.advance = .next t) := by
  unfold step edge at h
  cases hr : s.port.rst with
  | true => simp only [hr] at h; exact .inl ⟨rfl, by cases h; rfl⟩
  | false =>
    cases hf : s.fsm with
    | run => simp only [hr, hf] at h; exact .inr (.inl ⟨rfl, rfl, by cases h; rfl⟩)
    | idle =>
      cases hv : s.port.cmdValid with
      | false =>
        simp only [hr, hf, hv] at h
        exact .inr (.inr (.inl ⟨rfl, rfl, rfl, by cases h; rfl⟩))
      | true =>
        simp only [hr, hf, hv] at h
        exact .inr (.inr (.inr ⟨rfl, rfl, rfl, by simpa using h⟩))

/-- An edge with `rst = 1`. -/
theorem step_of_rst {s : State} (h : s.port.rst = true) : step s = .next (resetRegisters s.advance) := by
  simp [step, edge, h]

/-- An edge in `RUN`. -/
theorem step_of_run {s : State} (hr : s.port.rst = false) (hf : s.fsm = .run) : step s = .next (progress s.advance) := by
  simp [step, edge, hr, hf]

/-- An edge in `IDLE` with nothing presented. -/
theorem step_of_quiet {s : State} (hr : s.port.rst = false) (hf : s.fsm = .idle) (hv : s.port.cmdValid = false) :
    step s = .next s.advance := by
  simp [step, edge, hr, hf, hv]

/-- The next edge samples the head of the input levels; a state without reset to come has `rst = 0` on it. -/
theorem port_rst_of_noReset {s : State} (h : s.noReset) : s.port.rst = false := by
  unfold State.noReset at h
  unfold State.port
  cases hi : s.inputs with
  | nil => rfl
  | cons p ps => exact h p (by simp [hi])

end Sys2Proof.Machine
end

