-- ==== Sys2Proof/Laws/Run.lean ====
section
/-! SUPPORT. Runs of several edges: how they compose, and what an accepting edge is. -/

namespace Sys2Proof.Machine

/-- The first of several edges. -/
theorem runEdges_succ {s u : State} (n : Nat) (h : step s = .next u) : runEdges (n + 1) s = runEdges n u := by
  simp [runEdges, h]

/-- A run that answers a next state made its first edge. -/
theorem runEdges_first {s t : State} {n : Nat} (h : runEdges (n + 1) s = .next t) :
    ∃ u, step s = .next u ∧ runEdges n u = .next t := by
  unfold runEdges at h
  cases hs : step s with
  | next u    => rw [hs] at h; exact ⟨u, rfl, h⟩
  | fault r   => rw [hs] at h; cases h
  | refused r => rw [hs] at h; cases h

/-- `m + n` edges are `m` edges and then `n` edges. -/
theorem runEdges_add (m n : Nat) {s t : State} (h : runEdges m s = .next t) :
    runEdges (m + n) s = runEdges n t := by
  induction m generalizing s with
  | zero => cases h; simp
  | succ m ih =>
    obtain ⟨u, hu, hr⟩ := runEdges_first h
    rw [Nat.succ_add, runEdges_succ _ hu]
    exact ih hr

/-- The commands accepted on `m + n` edges. -/
theorem acceptedRun_add (m n : Nat) {s t : State} (h : runEdges m s = .next t) :
    acceptedRun (m + n) s = acceptedRun m s ++ acceptedRun n t := by
  induction m generalizing s with
  | zero => cases h; simp [acceptedRun]
  | succ m ih =>
    obtain ⟨u, hu, hr⟩ := runEdges_first h
    rw [Nat.succ_add]
    simp only [acceptedRun, hu]
    rw [ih hr, List.append_assoc]

/-- The time stamps of `m + n` edges. -/
theorem timeline_add (m n e : Nat) {s t : State} (h : runEdges m s = .next t) :
    timeline e (m + n) s = timeline e m s ++ timeline (e + m) n t := by
  induction m generalizing s e with
  | zero => cases h; simp [timeline]
  | succ m ih =>
    obtain ⟨u, hu, hr⟩ := runEdges_first h
    rw [Nat.succ_add]
    simp only [timeline, hu]
    rw [ih (e + 1) hr, List.append_assoc, show e + 1 + m = e + (m + 1) by omega]

/-- The inputs still to come hold no reset if all of them held none. -/
theorem noReset_of_tail {s t : State} (h : s.noReset) (e : t.inputs = s.inputs.tail) : t.noReset := by
  intro p hp
  rw [e] at hp
  exact h p (List.mem_of_mem_tail hp)

/-- When the next edge accepts a command (R76). -/
theorem acceptedAt_eq_some {s : State} {i : Instr} (h : acceptedAt s = some i) :
    s.port.rst = false ∧ s.port.cmdValid = true ∧ s.fsm = .idle ∧ decode s.port.word = i := by
  unfold acceptedAt at h
  split at h
  · rename_i hc
    simp only [State.cmdReady, Bool.and_eq_true, Bool.not_eq_true', decide_eq_true_eq] at hc
    cases h
    exact ⟨hc.1.1, hc.1.2, hc.2, rfl⟩
  · cases h

/-- A command of at least one step is that many steps (R101, R102, R110). -/
theorem opExec_eq_repeatStep (i : Instr) (o : OpState) (h : 0 < stepsOf i) :
    opExec i o = repeatStep (stepsOf i) (dirOf i) o := by
  cases i with
  | stepFwd => rfl
  | stepBwd => rfl
  | setSpeed d => simp [stepsOf] at h
  | rotate n =>
    simp only [stepsOf] at h
    simp only [opExec, opRotate, dirOf, rotateDir, stepsOf]
    split
    · rw [if_neg (by omega)]
    · rw [if_pos (by omega), if_pos (by omega)]

/-- `steps_left - 1` does not wrap while it is not 0 (R139). -/
theorem pred_toNat (w : Word) (h : w ≠ 0#32) : (w - 1#32).toNat = w.toNat - 1 ∧ w.toNat ≠ 0 := by
  have hz : w.toNat ≠ 0 := fun hz => h (BitVec.eq_of_toNat_eq hz)
  have hlt := w.isLt
  refine ⟨?_, hz⟩
  simp only [BitVec.toNat_sub, BitVec.toNat_ofNat]
  omega

end Sys2Proof.Machine
end

