-- ==== Sys2Proof/Laws/Text.lean ====
section
/-! SUPPORT. What the readers of decimal numbers answer on the text of a number (30_encoding.md R79). -/

namespace Sys2Proof.Machine

theorem digitOf_of_isDigit (c : Char) (h : c.isDigit = true) : digitOf c = some (c.toNat - 48) := by
  simp only [Char.isDigit, Bool.and_eq_true, decide_eq_true_eq] at h
  exact if_pos ⟨UInt32.le_iff_toNat_le.mp h.1, UInt32.le_iff_toNat_le.mp h.2⟩

theorem digitsFrom_of_isDigit (cs : List Char) (h : ∀ c ∈ cs, c.isDigit = true) (acc : Nat) :
    digitsFrom acc cs = some (Nat.ofDigitChars 10 cs acc) := by
  induction cs generalizing acc with
  | nil => rfl
  | cons c cs ih =>
    have e : acc * 10 + (c.toNat - 48) = 10 * acc + (c.toNat - '0'.toNat) := by simp [Nat.mul_comm]
    simp only [digitsFrom, digitOf_of_isDigit c (h c (by simp)), ih (fun c hc => h c (by simp [hc])),
      Nat.ofDigitChars_cons, e]

/-- The decimal digits of a number are read as that number. -/
@[simp] theorem naturalOf_toDigits (n : Nat) : naturalOf (Nat.toDigits 10 n) = some n := by
  have digits : ∀ c ∈ Nat.toDigits 10 n, c.isDigit = true := fun _ => Nat.isDigit_of_mem_toDigits (by omega) (by omega)
  have value : Nat.ofDigitChars 10 (Nat.toDigits 10 n) 0 = n := Nat.ofDigitChars_toDigits (by omega) (by omega)
  cases e : Nat.toDigits 10 n with
  | nil => exact absurd e Nat.toDigits_ne_nil
  | cons c cs => rw [e] at digits value; rw [naturalOf, digitsFrom_of_isDigit _ digits, value]

/-- The decimal text of an integer, a `-` before a negative one, is read as that integer. -/
@[simp] theorem integerOf_repr (n : Int) : integerOf n.repr.toList = some n := by
  cases n with
  | ofNat n =>
    have digits : ∀ c ∈ Nat.toDigits 10 n, c.isDigit = true :=
      fun _ => Nat.isDigit_of_mem_toDigits (by omega) (by omega)
    have read := naturalOf_toDigits n
    rw [Int.repr, Nat.repr, String.toList_ofList]
    revert digits read
    generalize Nat.toDigits 10 n = ds
    intro digits read
    unfold integerOf
    split
    · exact absurd (digits '-' (by simp)) (by decide)
    · rw [read]; rfl
  | negSucc n =>
    simp only [Int.repr, Nat.repr, String.toList_append, String.toList_ofList]
    rw [show "-".toList = ['-'] from rfl, List.singleton_append, integerOf, naturalOf_toDigits]
    rfl

/-- A command passes the range check exactly if it has an encoding (R79). -/
theorem inRange_eq_ok (i : Instr) (line : ProgLine) : inRange i = .ok line ↔ i.WellFormed ∧ line = .cmd i := by
  unfold inRange
  split
  · exact ⟨fun e => ⟨‹_›, (Except.ok.inj e).symm⟩, fun e => by rw [e.2]⟩
  · exact ⟨fun e => (nomatch e), fun e => absurd e.1 ‹_›⟩

end Sys2Proof.Machine
end

