-- ==== Sys2Proof/Tests/Slice0.lean ====
section
/-! SUPPORT. Small tests: words written out from the encoding rules, single edges out of the traces of
95_test_vectors.md, and for every obligation with hypotheses a concrete input that meets them. -/

open Sys2Proof Sys2Proof.Machine

namespace Sys2Proof.Tests

/-! ## Helpers -/

/-- A small state that shows its phase: index, `fsm`, `dir`, `steps_left`, `wait_cnt`, `delay_unit`, `CYCLES_PER_US`,
inputs; `DELAY_INIT` is 2 and the trace is empty. -/
def stateOf (p : PhaseIx) (f : Fsm) (d : Dir) (left : Word) (wait : Nat) (delay : Word) (cycles : Nat)
    (ins : List PortIn) : State :=
  ⟨p, phaseTable p, delay, f, d, left, wait, ⟨cycles, 2#32⟩, ins, []⟩

/-- The outcome is a next state with the property. -/
def nextWith (o : Host.Outcome State Fault Refusal) (q : State → Bool) : Bool :=
  match o with
  | .next t    => q t
  | .fault _   => false
  | .refused _ => false

/-- The registers in the column order of the traces P4 to P7. -/
structure Row where
  fsm       : Fsm
  phase     : PhaseIx
  coilOut   : Pattern
  delayUnit : Word
  dir       : Dir
  stepsLeft : Word
  waitCnt   : Nat
  cmdReady  : Bool
  deriving DecidableEq, Repr

/-- The row of a state. -/
def row (s : State) : Row :=
  ⟨s.fsm, s.phaseIndex, s.coilOut, s.delayUnit, s.dir, s.stepsLeft, s.waitCnt, s.cmdReady⟩

/-! ## Well-formedness: each check refuses an operand just outside its range and takes the one just inside (R79) -/

theorem test_wf_refuses_rotate_below : (Instr.rotate (-2147483649)).wellFormed = false := by decide
theorem test_wf_refuses_rotate_above : (Instr.rotate 2147483648).wellFormed = false := by decide
theorem test_wf_refuses_set_speed_above : (Instr.setSpeed 4294967296).wellFormed = false := by decide
theorem test_wf_takes_the_bounds :
    (Instr.rotate (-2147483648)).wellFormed && (Instr.rotate 2147483647).wellFormed &&
    (Instr.setSpeed 4294967295).wellFormed = true := by decide

/-! ## Decoding: words bit by bit, `op` then `arg` (R70, R72) -/

theorem test_decode_step_fwd : decode 0b00_00000000000000000000000000000000#34 = .stepFwd := by decide
theorem test_decode_step_fwd_ignores_arg : decode 0b00_10000000000000000000000000000001#34 = .stepFwd := by decide
theorem test_decode_step_bwd : decode 0b01_00000000000000000000000000000000#34 = .stepBwd := by decide
theorem test_decode_rotate_minus_three : decode 0b10_11111111111111111111111111111101#34 = .rotate (-3) := by decide
theorem test_decode_rotate_most_negative : decode 0b10_10000000000000000000000000000000#34 = .rotate (-2147483648) := by decide
theorem test_decode_set_speed : decode 0b11_00000000000000000000100111000100#34 = .setSpeed 2500 := by decide
theorem test_decode_set_speed_unsigned : decode 0b11_10000000000000000000000000000000#34 = .setSpeed 2147483648 := by decide
theorem test_decode_refuses_a_35_bit_number : decodeNat 0x400000000 = .error .notACommandWord := by rfl
theorem test_table_word_set_speed : decodeTableWord 40 0x3000007D0 = some (.setSpeed 2000) := by decide
/-- Words of 95_test_vectors.md, programs P2, P3 and P7. -/
theorem test_encode_program_words :
    encode (.rotate (-3)) = 0x2FFFFFFFD#34 ∧ encode (.rotate (-4)) = 0x2FFFFFFFC#34 ∧
    encode (.setSpeed 3) = 0x300000003#34 ∧ encode .stepBwd = 0x100000000#34 := by decide

/-! ## One edge (95_test_vectors.md, traces P4 to P7) -/

/-- P4, edge 9: `STEP_BWD` accepted. -/
theorem test_edge_step_bwd : nextWith (step (stateOf 2#3 .idle .fwd 0#32 0 1#32 2 [.present 0x100000000#34]))
    (fun t => decide (row t = ⟨.run, 1#3, 0x3#4, 1#32, .bwd, 0#32, 2, false⟩)) = true := by decide
/-- P5, edge 6: `STEP_FWD` accepted with a zero delay; the events of the step. -/
theorem test_edge_step_fwd : nextWith (step (stateOf 3#3 .idle .fwd 0#32 0 0#32 1 [.present 0x000000000#34]))
    (fun t => decide (row t = ⟨.run, 4#3, 0x4#4, 0#32, .fwd, 0#32, 0, false⟩ ∧
      t.trace = [.pinWrite 0 false, .pinWrite 1 false, .pinWrite 2 true, .pinWrite 3 false, .wait 0])) = true := by decide
/-- P4, edge 2: `ROTATE 2` accepted. -/
theorem test_edge_rotate : nextWith (step (stateOf 0#3 .idle .fwd 0#32 0 1#32 2 [.present 0x200000002#34]))
    (fun t => decide (row t = ⟨.run, 1#3, 0x3#4, 1#32, .fwd, 1#32, 2, false⟩)) = true := by decide
/-- P5, edge 5: `ROTATE 0` accepted, nothing changes. -/
theorem test_edge_rotate_zero : nextWith (step (stateOf 3#3 .idle .fwd 0#32 0 0#32 1 [.present 0x200000000#34]))
    (fun t => decide (row t = ⟨.idle, 3#3, 0x6#4, 0#32, .fwd, 0#32, 0, true⟩ ∧ t.trace = [])) = true := by decide
/-- R114: the most negative operand loads `2^31 - 1`. -/
theorem test_edge_rotate_most_negative :
    nextWith (exec (.rotate (-2147483648)) (stateOf 4#3 .idle .fwd 0#32 0 0#32 1 []))
    (fun t => decide (t.stepsLeft = 2147483647#32 ∧ t.dir = .bwd ∧ t.phaseIndex = 3#3)) = true := by decide
/-- P7, edge 6: `SET_SPEED 3` accepted. -/
theorem test_edge_set_speed : nextWith (step (stateOf 6#3 .idle .bwd 0#32 0 1#32 1 [.present 0x300000003#34]))
    (fun t => decide (row t = ⟨.idle, 6#3, 0x8#4, 3#32, .bwd, 0#32, 0, true⟩)) = true := by decide
/-- P4, edge 5: the second step of a rotation begins while `STEP_BWD` is presented. -/
theorem test_edge_next_step : nextWith (step (stateOf 1#3 .run .fwd 1#32 0 1#32 2 [.present 0x100000000#34]))
    (fun t => decide (row t = ⟨.run, 2#3, 0x2#4, 1#32, .fwd, 0#32, 2, false⟩)) = true := by decide
/-- P7, edge 2: the wait counts down while `SET_SPEED 3` is presented. -/
theorem test_edge_count_down : nextWith (step (stateOf 7#3 .run .bwd 1#32 1 1#32 1 [.present 0x300000003#34]))
    (fun t => decide (row t = ⟨.run, 7#3, 0x9#4, 1#32, .bwd, 1#32, 0, false⟩)) = true := by decide
/-- P4, edge 8: the overhead edge of the last step. -/
theorem test_edge_back_to_idle : nextWith (step (stateOf 2#3 .run .fwd 0#32 0 1#32 2 [.present 0x100000000#34]))
    (fun t => decide (row t = ⟨.idle, 2#3, 0x2#4, 1#32, .fwd, 0#32, 0, true⟩)) = true := by decide
/-- P6, edge 6: reset in the middle of a rotation, a command presented. -/
theorem test_edge_reset : nextWith (step (stateOf 2#3 .run .fwd 3#32 1 2#32 1 [⟨true, true, 1#2, 0#32⟩]))
    (fun t => decide (row t = ⟨.idle, 0#3, 0x1#4, 2#32, .fwd, 0#32, 0, true⟩ ∧ t.trace = [])) = true := by decide
/-- The first step after reset runs a presented command (log entry 6). -/
theorem test_first_step_after_reset : nextWith (step (State.reset.withFetchWord 40 0x2FFFFFFFF))
    (fun t => decide (t.phaseIndex = 7#3 ∧ t.coilOut = 0x9#4 ∧ t.fsm = .run)) = true := by decide

/-! ## The operation level (95_test_vectors.md sections 1 and 5) -/

/-- X10: `rotate(-3)` from index 1. -/
theorem test_op_rotate_minus_three : (opExec (.rotate (-3)) ⟨1#3, 0x3#4, 500#32, []⟩).trace =
    stepEvents 0#3 500#32 ++ stepEvents 7#3 500#32 ++ stepEvents 6#3 500#32 := by decide
/-- Section 5, row `5, 4`. -/
theorem test_op_rotate_four : (opExec (.rotate 4) ⟨5#3, 0xC#4, 1#32, []⟩).phaseIndex = 1#3 ∧
    (opExec (.rotate 4) ⟨5#3, 0xC#4, 1#32, []⟩).coilOut = 0x3#4 := by decide

/-! ## Text and host (R79, R80) -/

theorem test_text_rotate : parseLine "ROTATE -3".toList = .ok (.cmd (.rotate (-3))) := by rfl
theorem test_text_source_spelling : parseLine "set_speed(2500)".toList = .ok (.cmd (.setSpeed 2500)) := by rfl
theorem test_text_out_of_range : parseLine "ROTATE 2147483648".toList = .error .operandOutOfRange := by rfl
theorem test_text_pause : parseLine "PAUSE 100000".toList = .ok (.pause 100000) := by rfl
theorem test_text_no_apply : parseLine "apply_current_phase".toList = .error .unknownText := by rfl
theorem test_host_holds_until_ready : hostEdge false [.command .stepFwd] = (.present 0#34, [.command .stepFwd]) := by decide

/-! ## Witnesses: inputs that meet the hypotheses of the obligations -/

/-- A forward rotation in progress, presented with a command. -/
def running : State := stateOf 1#3 .run .fwd 1#32 2 1#32 2 [.present 0x100000000#34]

/-- An idle block with the word presented. -/
def presented (w : CmdWord) : State := stateOf 1#3 .idle .fwd 0#32 0 1#32 2 [.present w]

/-- The operation level on row 3. -/
def onRowThree : OpState := ⟨3#3, 0x6#4, 7#32, []⟩

theorem test_witness_DecodeOfEncodeIsTheCommand :
    (Instr.rotate (-2147483648)).WellFormed ∧ (Instr.rotate 2147483647).WellFormed ∧
    (Instr.setSpeed 4294967295).WellFormed ∧ Instr.stepFwd.WellFormed ∧ Instr.stepBwd.WellFormed := by decide
theorem test_witness_WordNumbersOfTheTextSyntax :
    (Instr.rotate (-1)).WellFormed ∧ (Instr.setSpeed 0).WellFormed := by decide
/-- The hypothesis of the first clause, at the greatest operands. -/
theorem test_witness_AcceptedTextHasAnEncoding :
    parseLine "SET_SPEED 4294967295".toList = .ok (.cmd (.setSpeed 4294967295)) ∧
    parseLine "rotate(2147483647)".toList = .ok (.cmd (.rotate 2147483647)) := ⟨by rfl, by rfl⟩
/-- The operand clauses on both sides of each bound (R79). -/
theorem test_text_bounds :
    parseLine "rotate(-2147483648)".toList = .ok (.cmd (.rotate (-2147483648))) ∧
    parseLine "ROTATE -2147483649".toList = .error .operandOutOfRange ∧
    parseLine "set_speed(4294967296)".toList = .error .operandOutOfRange := ⟨by rfl, by rfl, by rfl⟩
/-- `toString` is the decimal text. -/
theorem test_text_decimal : "ROTATE " ++ toString (-2147483649 : Int) = "ROTATE -2147483649" ∧
    "SET_SPEED " ++ toString (4294967296 : Nat) = "SET_SPEED 4294967296" := by decide
theorem test_witness_PhaseTableProperties : phaseTable 5#3 = phaseTable 5#3 := by decide
theorem test_witness_PinWritesInAnyOrderShowNoThirdPattern :
    onRowThree.coilOut = phaseTable onRowThree.phaseIndex ∧ ∀ k : Fin 4, k ∈ [3, 1, 0, 2, 1] := by decide
theorem test_witness_StepFwdRule :
    (presented 0#34).noReset ∧ acceptedAt (presented 0#34) = some .stepFwd ∧
    2 ≤ waitCycles (presented 0#34).delayUnit (presented 0#34).params := by decide
theorem test_witness_OppositeStepsCancel : onRowThree.coilOut = phaseTable onRowThree.phaseIndex := by decide
theorem test_witness_RotateRule :
    (Instr.rotate (-2147483648)).WellFormed ∧ (-2147483648 : Int) ≠ 0 := by decide
theorem test_witness_RotateRoundTrip : onRowThree.coilOut = phaseTable onRowThree.phaseIndex := by decide
theorem test_witness_RotationCountIsExact :
    (Instr.rotate (-2147483648)).WellFormed ∧ (-2147483648 : Int) ≠ 0 ∧
    nextWith (exec (.rotate (-2147483648)) running) (fun _ => true) = true := by decide
theorem test_witness_SetSpeedRule :
    (Instr.setSpeed 2500).WellFormed ∧ acceptedAt (presented 0x3000009C4#34) = some (.setSpeed 2500) := by decide
theorem test_witness_NewDelayGovernsOnlyLaterSteps :
    (Instr.setSpeed 250).WellFormed ∧ ∀ i ∈ [Instr.stepFwd, Instr.rotate 2], ∀ d, i ≠ .setSpeed d := by
  refine ⟨by decide, fun i h d => ?_⟩
  simp only [List.mem_cons, List.not_mem_nil, or_false] at h
  rcases h with rfl | rfl <;> exact Instr.noConfusion
theorem test_witness_AcceptedRotateBeginsItsFirstStep :
    (Instr.rotate 2147483647).WellFormed ∧ (Instr.rotate (-2147483648)).WellFormed ∧ (Instr.rotate 0).WellFormed ∧
    (0 : Int) < 2147483647 ∧ (-2147483648 : Int) < 0 := by decide
theorem test_witness_AcceptedSetSpeedWritesTheDelay : (Instr.setSpeed 0).WellFormed := by decide
theorem test_witness_MovementCommandsFrame :
    nextWith (exec .stepFwd running) (fun _ => true) && nextWith (exec .stepBwd running) (fun _ => true) &&
    nextWith (exec (.rotate (-3)) running) (fun _ => true) = true := by decide
theorem test_witness_SetSpeedFrame : nextWith (exec (.setSpeed 5) running) (fun _ => true) = true := by decide
theorem test_witness_AcceptingEdgeRunsTheDecodedCommand :
    (presented 5#34).port.rst = false ∧ (presented 5#34).port.cmdValid = true ∧ (presented 5#34).fsm = .idle := by decide
theorem test_witness_IdleEdgeChangesNothing :
    State.reset.port.rst = false ∧ State.reset.port.cmdValid = false ∧ State.reset.fsm = .idle := by decide
/-- The three clauses: counting down, beginning the next step, returning to idle. -/
theorem test_witness_ProgressWhileRunning :
    (running.port.rst = false ∧ running.fsm = .run ∧ running.waitCnt ≠ 0) ∧
    ((stateOf 1#3 .run .bwd 1#32 0 1#32 2 []).waitCnt = 0 ∧ (stateOf 1#3 .run .bwd 1#32 0 1#32 2 []).stepsLeft ≠ 0#32) ∧
    ((stateOf 1#3 .run .bwd 0#32 0 1#32 2 []).waitCnt = 0 ∧ (stateOf 1#3 .run .bwd 0#32 0 1#32 2 []).stepsLeft = 0#32) := by
  decide
theorem test_witness_ResetEdgeLoadsTheResetValues :
    (stateOf 2#3 .run .bwd 3#32 1 2#32 1 [.resetLine]).port.rst = true := by decide
theorem test_witness_ResetLeavesNoMemoryOfTheCommand :
    (stateOf 2#3 .run .bwd 3#32 1 2#32 1 [.resetLine]).inputs = .resetLine :: [] ∧ PortIn.resetLine.rst = true := by decide
theorem test_witness_CommandLinesMatterOnlyWhenAccepted :
    (PortIn.present 5#34).rst = PortIn.quiet.rst ∧ running.fsm = .run ∧
    (PortIn.quiet.cmdValid = false ∧ (⟨false, false, 3#2, 9#32⟩ : PortIn).cmdValid = false) ∧ PortIn.resetLine.rst = true := by
  decide
theorem test_witness_EveryEdgeKeepsTheInvariant :
    running.Inv ∧ nextWith (step running) (fun _ => true) = true := by decide
theorem test_witness_ReachableStatesShowTheirPhase : Reachable (State.launch ⟨2, 3#32⟩ [.present 0x200000002#34]) :=
  .launch _ _ (by decide)
theorem test_witness_HiddenCountersFitTheirWidths :
    running.Inv ∧ (2 ^ 32 - 1) * running.params.cyclesPerUs < 2 ^ 33 := by decide
theorem test_witness_EdgesKeepParametersAndConsumeOneInput : nextWith (step running) (fun _ => true) = true := by decide
theorem test_witness_AnEdgeFlipsAtMostOneCoil :
    (stateOf 1#3 .run .fwd 1#32 0 1#32 2 []).Inv ∧ (stateOf 1#3 .run .fwd 1#32 0 1#32 2 []).port.rst = false ∧
    nextWith (step (stateOf 1#3 .run .fwd 1#32 0 1#32 2 [])) (fun t => t.coilOut != 0x3#4) = true := by decide
/-- Both clauses: a reset, and an edge that begins a step. -/
theorem test_witness_PinsAreWrittenOnlyWhenAStepBegins :
    ((stateOf 2#3 .run .bwd 3#32 1 2#32 1 [.resetLine]).port.rst = true ∧
     nextWith (step (stateOf 2#3 .run .bwd 3#32 1 2#32 1 [.resetLine])) (fun _ => true) = true) ∧
    ((presented 0#34).port.rst = false ∧ nextWith (step (presented 0#34)) (fun t => t.trace.length == 5) = true) := by
  decide
theorem test_witness_OnlySetSpeedAndResetWriteTheDelay :
    nextWith (step (presented 0x300000009#34)) (fun t => t.delayUnit != (presented 0x300000009#34).delayUnit) = true := by
  decide
theorem test_witness_AStepHoldsItsPatternForItsWait :
    (beginStep .bwd (presented 0#34)).noReset ∧ 2 ≤ waitCycles (presented 0#34).delayUnit (presented 0#34).params := by
  decide
theorem test_witness_BusyTimeOfEveryCommand :
    (presented 0x2FFFFFFFE#34).noReset ∧ acceptedAt (presented 0x2FFFFFFFE#34) = some (.rotate (-2)) ∧
    5 < stepsOf (.rotate (-2)) *
      (waitCycles (presented 0x2FFFFFFFE#34).delayUnit (presented 0x2FFFFFFFE#34).params + 1) := by decide
theorem test_witness_EveryBusyStateReturnsToIdle : running.Inv ∧ running.noReset ∧ running.fsm = .run := by decide
theorem test_witness_CoilChangesAreAStepApart :
    (presented 0#34).noReset ∧
    nextWith (step (presented 0#34)) (fun t => t.coilOut != (presented 0#34).coilOut &&
      nextWith (runEdges 2 t) (fun _ => true)) = true ∧
    2 ≤ waitCycles (presented 0#34).delayUnit (presented 0#34).params := by decide
theorem test_witness_BackToBackStepsAreSpaced :
    (stateOf 1#3 .idle .fwd 0#32 0 1#32 2 (List.replicate 9 (.present 0#34))).fsm = .idle ∧ decode 0#34 = .stepFwd ∧
    decode 0x100000000#34 = .stepBwd ∧
    (stateOf 1#3 .idle .fwd 0#32 0 1#32 2 (List.replicate 9 (.present 0#34))).inputs =
      List.replicate 9 (PortIn.present 0#34) := by decide
theorem test_witness_EventsStandOnTheEdgesOfTheirSteps :
    (presented 0x2FFFFFFFE#34).noReset ∧ acceptedAt (presented 0x2FFFFFFFE#34) = some (.rotate (-2)) := by decide
theorem test_witness_RunOfOneCommandEndsAfterItsLastWait :
    (presented 0x300000001#34).noReset ∧ acceptedAt (presented 0x300000001#34) = some (.setSpeed 1) := by decide
theorem test_witness_IdleBlockKeepsItsPattern :
    State.reset.fsm = .idle ∧ ∀ p ∈ [PortIn.quiet, ⟨false, false, 3#2, 9#32⟩], p.rst = false ∧ p.cmdValid = false := by decide
theorem test_witness_EveryCommandReachesItsResult :
    (presented 0x1DEADBEEF#34).noReset ∧ acceptedAt (presented 0x1DEADBEEF#34) = some .stepBwd ∧
    acceptedAt (presented 0x300000000#34) = some (.setSpeed 0) ∧
    acceptedAt (presented 0x000000000#34) = some .stepFwd ∧ acceptedAt (presented 0x200000000#34) = some (.rotate 0) := by
  decide
theorem test_witness_CycleLevelRefinesOperationLevel :
    (presented 0x200000003#34).fsm = .idle ∧ (presented 0x200000003#34).noReset ∧
    nextWith (runEdges 1 (presented 0x200000003#34)) (fun t => decide (t.fsm = .run)) = true ∧
    nextWith (runEdges 1 (presented 0x200000000#34)) (fun t => decide (t.fsm = .idle)) = true := by decide
theorem test_witness_HeldCommandIsAcceptedAtTheFirstIdleEdge :
    running.Inv ∧ running.fsm = .run ∧ (Instr.setSpeed 3).WellFormed := by decide
theorem test_witness_PauseAndResetOfAListing : State.reset.fsm = .idle := by decide

end Sys2Proof.Tests
end

/-! The phase table and its application (40_apply_phase.md R90, R92). -/

namespace Sys2Proof.Machine

/-! ## The table (R90) -/

/-- The rows in index order. The table is a constant of eight rows, so each row is read off it. -/
theorem phaseTable_rows :
    phaseTable 0#3 = 0x1#4 ∧ phaseTable 1#3 = 0x3#4 ∧ phaseTable 2#3 = 0x2#4 ∧ phaseTable 3#3 = 0x6#4 ∧
    phaseTable 4#3 = 0x4#4 ∧ phaseTable 5#3 = 0xC#4 ∧ phaseTable 6#3 = 0x8#4 ∧ phaseTable 7#3 = 0x9#4 := by
  decide

/-- Coil A is bit 0. Each coil is high in three cyclically consecutive rows. -/
theorem phaseTable_coilA (i : PhaseIx) : (phaseTable i).getLsbD 0 = true ↔ i ∈ [0#3, 1#3, 7#3] := by
  revert i; decide

/-- Coil A′ is bit 1. -/
theorem phaseTable_coilA' (i : PhaseIx) : (phaseTable i).getLsbD 1 = true ↔ i ∈ [1#3, 2#3, 3#3] := by
  revert i; decide

/-- Coil B is bit 2. -/
theorem phaseTable_coilB (i : PhaseIx) : (phaseTable i).getLsbD 2 = true ↔ i ∈ [3#3, 4#3, 5#3] := by
  revert i; decide

/-- Coil B′ is bit 3. -/
theorem phaseTable_coilB' (i : PhaseIx) : (phaseTable i).getLsbD 3 = true ↔ i ∈ [5#3, 6#3, 7#3] := by
  revert i; decide

/-- Settles O8: the rows are read off the table, the columns are checked over the eight indices. -/
theorem phaseTableRows : Obligations.PhaseTableRows :=
  ⟨phaseTable_rows, fun i => ⟨phaseTable_coilA i, phaseTable_coilA' i, phaseTable_coilB i, phaseTable_coilB' i⟩⟩

/-! ## Applying the current phase (R92) -/

/-- The whole row on the coils and its four pin writes in the trace, whatever the coils showed before. -/
theorem applyCurrentPhase_eq (o : OpState) :
    applyCurrentPhase o =
      { o with
        coilOut := phaseTable o.phaseIndex
        trace   := o.trace ++ applyEvents (phaseTable o.phaseIndex) } :=
  writeRow_eq _ o

/-- The edge of `begin_step` (R132) is the index update, one apply and one wait event (R100, log entry 4). -/
theorem beginStep_op_eq_waitFor (d : Dir) (s : State) :
    (beginStep d s).op =
      waitFor (zext32 s.delayUnit) (applyCurrentPhase { s.op with phaseIndex := turn d s.phaseIndex }) :=
  beginStep_op d s

/-- Settles O10: the closed form of the apply; the step edge adds one wait event to it, which writes no register and no
pin; and row 3 is `0x6`. -/
theorem applyCurrentPhaseWritesTheRow : Obligations.ApplyCurrentPhaseWritesTheRow := by
  refine ⟨applyCurrentPhase_eq, fun d s => ?onTheEdge, fun c delay => ?workedExample⟩
  case onTheEdge =>
    have h := beginStep_op_eq_waitFor d s
    exact ⟨congrArg OpState.phaseIndex h, congrArg OpState.coilOut h,
      [.wait (zext32 s.delayUnit)], congrArg OpState.trace h, by simp⟩
  case workedExample =>
    have row3 : phaseTable 3#3 = 0x6#4 := by
      obtain ⟨-, -, -, h, -⟩ := phaseTable_rows
      exact h
    rw [applyCurrentPhase_eq, row3]
    rfl

end Sys2Proof.Machine

/-! The single steps (41_step.md R101, R102). -/

namespace Sys2Proof.Machine

/-! ## The words of the two step commands (R72, R75) -/

/-- The operand field of a `STEP_FWD` word is ignored. -/
theorem decode_packWord_stepFwd (arg : Word) : decode (packWord codeStepFwd arg) = .stepFwd := by
  rw [decode, opOf_packWord, if_pos rfl]

/-- The operand field of a `STEP_BWD` word is ignored. -/
theorem decode_packWord_stepBwd (arg : Word) : decode (packWord codeStepBwd arg) = .stepBwd := by
  rw [decode, opOf_packWord, if_neg (by decide), if_pos rfl]

/-! ## One step at the operation level (R100) -/

/-- `STEP_FWD` is one `step(0)`, whose turn adds 1 to the index. -/
theorem opExec_stepFwd (o : OpState) :
    opExec .stepFwd o =
      ⟨o.phaseIndex + 1#3, phaseTable (o.phaseIndex + 1#3), o.delayUnit,
       o.trace ++ (applyEvents (phaseTable (o.phaseIndex + 1#3)) ++ [.wait o.delayUnit.toNat])⟩ :=
  microStep_eq .fwd o

/-- `STEP_BWD` is one `step(1)`, whose turn adds 7 to the index. -/
theorem opExec_stepBwd (o : OpState) :
    opExec .stepBwd o =
      ⟨o.phaseIndex + 7#3, phaseTable (o.phaseIndex + 7#3), o.delayUnit,
       o.trace ++ (applyEvents (phaseTable (o.phaseIndex + 7#3)) ++ [.wait o.delayUnit.toNat])⟩ :=
  microStep_eq .bwd o

/-- The backward increment 7 is minus 1 modulo 8 (R100). -/
theorem turn_bwd_eq_sub_one (p : PhaseIx) : turn .bwd p = p - 1#3 :=
  (BitVec.sub_eq_add_neg p 1#3).symm

/-! ## The block during a wait (R135) -/

/-- A block in `RUN` is busy. -/
theorem busy_of_run {s : State} (hf : s.fsm = .run) : s.busy = true := decide_eq_true hf

/-- A block in `RUN` accepts nothing, whatever is presented (R76). -/
theorem acceptedAt_of_run {s : State} (hf : s.fsm = .run) : acceptedAt s = none := by
  simp [acceptedAt, State.cmdReady, hf]

/-- An accepting edge performs the accepted command (R133). -/
theorem step_of_acceptedAt {s : State} {i : Instr} (h : acceptedAt s = some i) : step s = exec i s.advance := by
  obtain ⟨hr, hv, hf, hi⟩ := acceptedAt_eq_some h
  simp [step, edge, hr, hv, hf, hi]

/-- `run()` during a wait counts down (R134). -/
theorem progress_of_waiting {s : State} (hw : s.waitCnt ≠ 0) : progress s = { s with waitCnt := s.waitCnt - 1 } :=
  if_pos hw

/-- An edge without reset during a wait counts down by one and changes no other register (R134). -/
theorem step_of_waiting {s : State} (hr : s.port.rst = false) (hf : s.fsm = .run) (hw : s.waitCnt ≠ 0) :
    step s = .next { s.advance with waitCnt := s.waitCnt - 1 } := by
  rw [step_of_run hr hf, progress_of_waiting (s := s.advance) hw]
  rfl

/-- The edges of a wait without reset count down and consume inputs, and do nothing else. -/
theorem runEdges_of_waiting (k : Nat) {s : State} (hn : s.noReset) (hf : s.fsm = .run) (hk : k ≤ s.waitCnt) :
    runEdges k s = .next { s with waitCnt := s.waitCnt - k, inputs := s.inputs.drop k } := by
  induction k generalizing s with
  | zero => rfl
  | succ k ih =>
    have first := step_of_waiting (port_rst_of_noReset hn) hf (by omega)
    have rest := ih (s := { s.advance with waitCnt := s.waitCnt - 1 }) (noReset_of_tail hn rfl) hf
      (Nat.le_sub_one_of_lt hk)
    rw [runEdges_succ k first, rest]
    simp [State.advance, Nat.sub_sub, Nat.add_comm 1 k]

/-- After an edge that begins a movement and `k` of the edges of its first wait, without reset, the block is in that
wait, `k` cycles on. -/
theorem runEdges_of_startMove {s : State} {d : Dir} {more : Word} (k : Nat) (hn : s.noReset)
    (hs : step s = .next (startMove d more s.advance)) (hk : k ≤ waitCycles s.delayUnit s.params) :
    runEdges (k + 1) s = .next { startMove d more s.advance with
      waitCnt := waitCycles s.delayUnit s.params - k, inputs := s.inputs.tail.drop k } := by
  rw [runEdges_succ k hs]
  exact runEdges_of_waiting k (noReset_of_tail hn rfl) rfl hk

/-! ## The two rules -/

/-- Settles O12: the decoder looks at the opcode only; the closed form of one step; the accepting edge begins the step,
and until its wait has elapsed the block stays in `RUN`, where it is busy and accepts nothing. -/
theorem stepFwdRule : Obligations.StepFwdRule := by
  refine ⟨⟨by decide, decode_packWord_stepFwd⟩, opExec_stepFwd, fun s k hn ha hk => ?blocked, ?workedExample⟩
  case blocked =>
    have accepted : step s = .next (startMove .fwd 0#32 s.advance) := step_of_acceptedAt ha
    exact ⟨_, runEdges_of_startMove k hn accepted hk, busy_of_run rfl, acceptedAt_of_run rfl⟩
  case workedExample =>
    rw [opExec_stepFwd]
    rfl

/-- Settles O13: as O12 with the backward increment, which is minus 1; the coil order is that of the one apply. -/
theorem stepBwdRule : Obligations.StepBwdRule := by
  refine ⟨⟨by decide, decode_packWord_stepBwd⟩, opExec_stepBwd, fun o => ?minusOne, ?workedExample⟩
  case minusOne =>
    rw [opExec_stepBwd]
    exact turn_bwd_eq_sub_one o.phaseIndex
  case workedExample =>
    rw [opExec_stepBwd]
    rfl

end Sys2Proof.Machine

/-! `ROTATE` (42_rotate.md R110). -/

namespace Sys2Proof.Machine

/-! ## The word of a rotation (R72, R79) -/

/-- The decoder reads the operand field of a `ROTATE` word as a two's complement integer. -/
theorem decode_packWord_rotate (arg : Word) : decode (packWord codeRotate arg) = .rotate (sext32 arg) := by
  rw [decode, opOf_packWord, argOf_packWord, if_neg (by decide), if_neg (by decide), if_pos rfl]

/-- The operand range of `ROTATE` (R79). -/
theorem wellFormed_rotate_iff (n : Int) :
    (Instr.rotate n).WellFormed ↔ -2147483648 ≤ n ∧ n ≤ 2147483647 := by
  simp [Instr.WellFormed, Instr.wellFormed]

/-- An operand in range is what its field reads as. -/
theorem sext32_rotateArg {n : Int} (h : (Instr.rotate n).WellFormed) : sext32 (rotateArg n) = n := by
  obtain ⟨lower, upper⟩ := (wellFormed_rotate_iff n).mp h
  exact BitVec.toInt_ofInt_eq_self (by decide) lower (Int.lt_add_one_of_le upper)

/-- The operand field is `steps mod 2^32` above the opcode's `0x2_0000_0000` (R79), whatever the operand. -/
theorem encode_rotate_toNat (n : Int) : (encode (.rotate n)).toNat = 0x200000000 + (n % 2 ^ 32).toNat := by
  rw [encode, packWord_toNat, rotateArg, BitVec.toNat_ofInt]
  rfl

/-- Decoding the word of a rotation in range gives the rotation back. -/
theorem decode_encode_rotate {n : Int} (h : (Instr.rotate n).WellFormed) :
    decode (encode (.rotate n)) = .rotate n := by
  rw [encode, decode_packWord_rotate, sext32_rotateArg h]

/-! ## The index after a number of steps of a rotation -/

/-- The index increment of a rotation's steps is the sign of its operand modulo 8: 7 is minus 1 (R100). -/
theorem rotateDir_increment {n : Int} (h : n ≠ 0) : (rotateDir n).increment = BitVec.ofInt 3 n.sign := by
  rcases Int.lt_or_gt_of_ne h with neg | pos
  · rw [rotateDir, if_pos neg, Int.sign_eq_neg_one_of_neg neg]
    rfl
  · rw [rotateDir, if_neg (Int.not_lt.mpr pos.le), Int.sign_eq_one_of_pos pos]
    rfl

/-- The index `m` steps into a rotation is `(p + sign * m) mod 8`. -/
theorem add_mul_rotateDir_increment {n : Int} (h : n ≠ 0) (p : PhaseIx) (m : Nat) :
    p + BitVec.ofNat 3 m * (rotateDir n).increment = BitVec.ofInt 3 (p.toNat + n.sign * m) := by
  rw [rotateDir_increment h, Int.mul_comm, BitVec.ofInt_add, BitVec.ofInt_mul, BitVec.ofInt_natCast,
    BitVec.ofInt_natCast, BitVec.ofNat_toNat, BitVec.setWidth_eq]

/-- The index after all `abs(steps)` steps of a rotation is `(p + steps) mod 8`. -/
theorem add_natAbs_mul_rotateDir_increment {n : Int} (h : n ≠ 0) (p : PhaseIx) :
    p + BitVec.ofNat 3 n.natAbs * (rotateDir n).increment = BitVec.ofInt 3 (p.toNat + n) := by
  rw [add_mul_rotateDir_increment h, Int.sign_mul_natAbs]

/-! ## A rotation at the operation level -/

/-- A rotation of at least one step is its steps in the direction of its sign, so their closed form gives the registers
and the event groups. -/
theorem opExec_rotate {n : Int} (h : n ≠ 0) (o : OpState) :
    opExec (.rotate n) o =
      ⟨BitVec.ofInt 3 (o.phaseIndex.toNat + n), phaseTable (BitVec.ofInt 3 (o.phaseIndex.toNat + n)), o.delayUnit,
       o.trace ++ (List.range n.natAbs).flatMap fun (j : Nat) =>
         stepEvents (BitVec.ofInt 3 (o.phaseIndex.toNat + n.sign * ((j : Int) + 1))) o.delayUnit⟩ := by
  have steps : opExec (.rotate n) o = repeatStep n.natAbs (rotateDir n) o :=
    opExec_eq_repeatStep (.rotate n) o (Int.natAbs_pos.mpr h)
  obtain ⟨index, coils, delay, events⟩ := repeatStep_fields n.natAbs (rotateDir n) o
  rw [add_natAbs_mul_rotateDir_increment h] at index
  rw [if_neg (Int.natAbs_ne_zero.mpr h), index] at coils
  simp only [add_mul_rotateDir_increment h, Nat.cast_add, Nat.cast_one] at events
  rw [steps, ← events, ← coils, ← index, ← delay]

/-- Settles O16: the word is read back in range; the closed form of the repeated steps; `ROTATE 0` takes the branch that
does nothing, at either level; the example is the closed form at index 1. -/
theorem rotateRule : Obligations.RotateRule := by
  refine ⟨fun n h => ⟨encode_rotate_toNat n, decode_encode_rotate h⟩, fun n o h => opExec_rotate h o,
    fun o s => ⟨rfl, rfl⟩, fun c delay => ?workedExample⟩
  case workedExample =>
    rw [opExec_rotate (by decide)]
    rfl

end Sys2Proof.Machine

/-! `SET_SPEED` (43_set_speed.md R120). -/

namespace Sys2Proof.Machine

/-! ## The operand (R79, R121) -/

/-- The operand range of `SET_SPEED` (R79). -/
theorem wellFormed_setSpeed_iff (d : Nat) : (Instr.setSpeed d).WellFormed ↔ d ≤ 4294967295 := by
  simp [Instr.WellFormed, Instr.wellFormed]

/-- An operand in range is stored as given. -/
theorem delayOperand_toNat {d : Nat} (h : (Instr.setSpeed d).WellFormed) : (delayOperand d).toNat = d :=
  (BitVec.toNat_ofNat d 32).trans (Nat.mod_eq_of_lt (Nat.lt_succ_of_le ((wellFormed_setSpeed_iff d).mp h)))

/-- An operand in range is what its field reads as: the field holds the value that is stored. -/
theorem zext32_setSpeedArg {d : Nat} (h : (Instr.setSpeed d).WellFormed) : zext32 (setSpeedArg d) = d :=
  delayOperand_toNat h

/-! ## The word (R72) -/

/-- The decoder reads the operand field of a `SET_SPEED` word as a natural number. -/
theorem decode_packWord_setSpeed (arg : Word) : decode (packWord codeSetSpeed arg) = .setSpeed (zext32 arg) := by
  rw [decode, opOf_packWord, argOf_packWord, if_neg (by decide), if_neg (by decide), if_neg (by decide)]

/-- An operand in range stands above the opcode's `0x3_0000_0000` (R79). -/
theorem encode_setSpeed_toNat {d : Nat} (h : (Instr.setSpeed d).WellFormed) :
    (encode (.setSpeed d)).toNat = 0x300000000 + d := by
  have field : (setSpeedArg d).toNat = d := zext32_setSpeedArg h
  rw [encode, packWord_toNat, field]
  rfl

/-- Decoding the word of a `SET_SPEED` in range gives the command back. -/
theorem decode_encode_setSpeed {d : Nat} (h : (Instr.setSpeed d).WellFormed) :
    decode (encode (.setSpeed d)) = .setSpeed d := by
  rw [encode, decode_packWord_setSpeed, zext32_setSpeedArg h]

/-! ## The effect at either level -/

/-- At the operation level `SET_SPEED` writes `delay_unit` and nothing else, and appends no event. -/
theorem opExec_setSpeed (d : Nat) (o : OpState) :
    opExec (.setSpeed d) o = ⟨o.phaseIndex, o.coilOut, delayOperand d, o.trace⟩ := rfl

/-- On the edge that accepts it `SET_SPEED` writes `delay_unit` and nothing else. -/
theorem exec_setSpeed (d : Nat) (s : State) :
    exec (.setSpeed d) s = .next { s with delayUnit := delayOperand d } := rfl

/-- A block in `IDLE` is not busy. -/
theorem busy_of_idle {s : State} (hf : s.fsm = .idle) : s.busy = false := by
  simp [State.busy, hf]

/-- A block in `IDLE` is ready. -/
theorem cmdReady_of_idle {s : State} (hf : s.fsm = .idle) : s.cmdReady = true := decide_eq_true hf

/-- The edge that accepts a `SET_SPEED` writes `delay_unit` and moves the inputs on; the block stays in `IDLE`. -/
theorem step_of_accepted_setSpeed {s : State} {d : Nat} (h : acceptedAt s = some (.setSpeed d)) :
    step s = .next { s.advance with delayUnit := delayOperand d } ∧ s.fsm = .idle := by
  obtain ⟨-, -, idle, -⟩ := acceptedAt_eq_some h
  exact ⟨(step_of_acceptedAt h).trans (exec_setSpeed d s.advance), idle⟩

/-- Settles O21: an operand in range is read back and stored as given; the accepting edge writes `delay_unit` only, so
the block stays idle and its trace unchanged; the next `STEP_FWD` waits the delay just stored. -/
theorem setSpeedRule : Obligations.SetSpeedRule := by
  refine ⟨fun d h => ⟨encode_setSpeed_toNat h, decode_encode_setSpeed h, fun o => ?operationLevel,
    fun s ha => ?onTheEdge⟩, fun p c => ?workedExample⟩
  case operationLevel => exact ⟨opExec_setSpeed d o, delayOperand_toNat h⟩
  case onTheEdge =>
    obtain ⟨next, idle⟩ := step_of_accepted_setSpeed ha
    exact ⟨_, next, delayOperand_toNat h, busy_of_idle idle, cmdReady_of_idle idle, rfl⟩
  case workedExample =>
    rw [opExec_stepFwd, opExec_setSpeed]
    exact ⟨rfl, rfl⟩

end Sys2Proof.Machine

/-! The command word (30_encoding.md R70 to R75, R79): decoder and encoder are inverse to each other, and the opcode
table. -/

namespace Sys2Proof.Machine

/-! ## Encoding and decoding -/

/-- Settles O1: the four forms, each by its own decoding lemma; the operand range is needed for `ROTATE` and `SET_SPEED`
only. -/
theorem decodeOfEncodeIsTheCommand : Obligations.DecodeOfEncodeIsTheCommand := by
  intro i h
  cases i with
  | stepFwd => exact decode_packWord_stepFwd 0#32
  | stepBwd => exact decode_packWord_stepBwd 0#32
  | rotate n => exact decode_encode_rotate h
  | setSpeed d => exact decode_encode_setSpeed h

/-- The two's complement reading of an operand field is written back as that field. -/
theorem rotateArg_sext32 (arg : Word) : rotateArg (sext32 arg) = arg := BitVec.ofInt_toInt

/-- The unsigned reading of an operand field is written back as that field. -/
theorem setSpeedArg_zext32 (arg : Word) : setSpeedArg (zext32 arg) = arg := 
  (BitVec.ofNat_toNat 32 arg).trans (BitVec.setWidth_eq arg)

/-- Every word is an operand field behind one of the four opcodes (R70, R74). -/
theorem word_cases (w : CmdWord) :
    ∃ arg, w = packWord codeStepFwd arg ∨ w = packWord codeStepBwd arg ∨ w = packWord codeRotate arg ∨
      w = packWord codeSetSpeed arg := by
  have fields := (packWord_fields w).symm
  refine ⟨argOf w, ?_⟩
  rcases opcode_cases (opOf w) with h | h | h | h <;> rw [h] at fields
  · exact .inl fields
  · exact .inr (.inl fields)
  · exact .inr (.inr (.inl fields))
  · exact .inr (.inr (.inr fields))

/-- The decoder answers operands in range only (R73): both readings of a 32-bit field stay in theirs. -/
theorem decode_wellFormed (w : CmdWord) : (decode w).WellFormed := by
  obtain ⟨arg, rfl | rfl | rfl | rfl⟩ := word_cases w
  · rw [decode_packWord_stepFwd]; rfl
  · rw [decode_packWord_stepBwd]; rfl
  · rw [decode_packWord_rotate]
    exact (wellFormed_rotate_iff _).mpr (decode_rotate_range _)
  · rw [decode_packWord_setSpeed]
    exact (wellFormed_setSpeed_iff _).mpr (Nat.le_of_lt_succ arg.isLt)

/-- The canonical word of `STEP_FWD` and `STEP_BWD` has a zero operand field. -/
theorem canonicalWord_packWord_step {op : Opcode} (h : op = codeStepFwd ∨ op = codeStepBwd) (arg : Word) :
    canonicalWord (packWord op arg) = packWord op 0#32 := by
  rw [canonicalWord, opOf_packWord, if_pos h]

/-- The words of `ROTATE` and `SET_SPEED` are their own canonical words. -/
theorem canonicalWord_packWord_operand {op : Opcode} (h : ¬ (op = codeStepFwd ∨ op = codeStepBwd)) (arg : Word) :
    canonicalWord (packWord op arg) = packWord op arg := by
  rw [canonicalWord, opOf_packWord, if_neg h]

/-- Encoding the command of a word gives the canonical word (R75). -/
theorem encode_decode (w : CmdWord) : encode (decode w) = canonicalWord w := by
  obtain ⟨arg, rfl | rfl | rfl | rfl⟩ := word_cases w
  · rw [decode_packWord_stepFwd, canonicalWord_packWord_step (.inl rfl)]; rfl
  · rw [decode_packWord_stepBwd, canonicalWord_packWord_step (.inr rfl)]; rfl
  · rw [decode_packWord_rotate, encode, rotateArg_sext32, canonicalWord_packWord_operand (by decide)]
  · rw [decode_packWord_setSpeed, encode, setSpeedArg_zext32, canonicalWord_packWord_operand (by decide)]

/-- Settles O2: the decoded operand is in range, so O1 applies to the decoded command, whose word is the
canonical one. -/
theorem encodeOfDecodeIsTheCanonicalWord : Obligations.EncodeOfDecodeIsTheCanonicalWord := by
  intro w
  have again : decode (encode (decode w)) = decode w := decodeOfEncodeIsTheCommand _ (decode_wellFormed w)
  rw [encode_decode] at again
  exact ⟨decode_wellFormed w, encode_decode w, again⟩

/-- Settles O3: the opcode is the number's part above `2^32` and the operand field the part below. -/
theorem wordNumbersOfTheTextSyntax : Obligations.WordNumbersOfTheTextSyntax :=
  ⟨packWord_toNat codeStepFwd 0#32, packWord_toNat codeStepBwd 0#32, fun n _ => encode_rotate_toNat n,
    fun _ h => encode_setSpeed_toNat h⟩

/-- Settles O5: the decoding lemma of each opcode. -/
theorem opcodeMapAndOperandReading : Obligations.OpcodeMapAndOperandReading := fun arg =>
  ⟨decode_packWord_stepFwd arg, decode_packWord_stepBwd arg, decode_packWord_rotate arg, decode_packWord_setSpeed arg⟩

/-- Settles O4: eleven closed instances of the decoder. -/
theorem writtenOutWordsDecode : Obligations.WrittenOutWordsDecode := by
  unfold Obligations.WrittenOutWordsDecode
  decide

/-! ## The opcode table (R74) -/

/-- Every row's mask keeps the opcode field alone, so a row covers a word or not by the word's opcode. -/
theorem covers_eq_of_mem {r : OpcodeRow} (hr : r ∈ opcodeTable) (w : CmdWord) :
    r.covers w = (packWord (opOf w) 0#32 == r.matchBits) := by
  have mask : ∀ r ∈ opcodeTable, r.mask = 0x300000000#34 := by decide
  have field := Laws.OpcodeRowOfWord.packWord_masked (opOf w) (argOf w)
  rw [packWord_fields] at field
  rw [OpcodeRow.covers, mask r hr, field]

/-- Two rows with the same bits are one row. -/
theorem eq_of_matchBits_eq : ∀ r ∈ opcodeTable, ∀ r' ∈ opcodeTable, r.matchBits = r'.matchBits → r = r' := by
  decide

/-- Every command's word lies in the row that bears its mnemonic. -/
theorem row_of_encode (i : Instr) : Laws.OpcodeRowOfWord.Statement i := by
  cases i with
  | stepFwd => exact Laws.OpcodeRowOfWord.stepFwd
  | stepBwd => exact Laws.OpcodeRowOfWord.stepBwd
  | rotate n => exact Laws.OpcodeRowOfWord.rotate n
  | setSpeed d => exact Laws.OpcodeRowOfWord.setSpeed d

/-- Clearing an ignored operand field keeps the opcode. -/
theorem opOf_canonicalWord (w : CmdWord) : opOf (canonicalWord w) = opOf w := by
  rw [canonicalWord]
  split
  · exact opOf_packWord (opOf w) 0#32
  · rfl

/-- Settles O6: the row of the decoded command covers its canonical word, hence the word itself, which has the same
opcode; a second row would have the same bits. -/
theorem everyWordLiesInExactlyItsRow : Obligations.EveryWordLiesInExactlyItsRow := by
  intro w
  obtain ⟨r, hr, name, covers⟩ := row_of_encode (decode w)
  rw [encode_decode, covers_eq_of_mem hr, opOf_canonicalWord] at covers
  refine ⟨r, hr, (covers_eq_of_mem hr w).trans covers, name, fun r' hr' covers' => ?_⟩
  rw [covers_eq_of_mem hr'] at covers'
  exact eq_of_matchBits_eq r' hr' r hr ((beq_iff_eq.mp covers').symm.trans (beq_iff_eq.mp covers))

end Sys2Proof.Machine

/-! Single edges of the cycle level (45_cycle_fsm.md R130 to R134) and what they leave unchanged. -/

namespace Sys2Proof.Machine

/-! ## Accepting a command (R133) -/

/-- `steps_left` after the edge that begins a rotation of at most `2^31` steps holds the steps still to begin. -/
theorem ofNat_pred_toNat {n : Nat} (h : n ≤ 2 ^ 31) : (BitVec.ofNat 32 (n - 1)).toNat = n - 1 := by
  rw [BitVec.toNat_ofNat]
  exact Nat.mod_eq_of_lt (by omega)

/-- A command with an encoding performs at most `2^31` steps (R114). -/
theorem stepsOf_le {i : Instr} (h : i.WellFormed) : stepsOf i ≤ 2 ^ 31 := by
  cases i with
  | stepFwd => decide
  | stepBwd => decide
  | rotate n =>
    obtain ⟨lower, upper⟩ := (wellFormed_rotate_iff n).mp h
    simp only [stepsOf]
    omega
  | setSpeed d => exact Nat.zero_le _

/-- `ROTATE` of at least one step begins its first step. -/
theorem exec_rotate {n : Int} (h : n ≠ 0) (s : State) :
    exec (.rotate n) s = .next (startMove (rotateDir n) (stepsAfterFirst n) s) := if_neg h

/-- Settles O23: `begin_step` in the command's direction with no step left. -/
theorem acceptedStepCommandsBeginAStep : Obligations.AcceptedStepCommandsBeginAStep := fun _ => ⟨rfl, rfl⟩

/-- Settles O24: the first step begins in the direction of the sign, and `abs(steps) - 1` fits its register. -/
theorem acceptedRotateBeginsItsFirstStep : Obligations.AcceptedRotateBeginsItsFirstStep := by
  intro n s h
  have left : (stepsAfterFirst n).toNat = n.natAbs - 1 := ofNat_pred_toNat (stepsOf_le h)
  refine ⟨fun pos => ⟨_, left, ?forward⟩, fun neg => ⟨_, left, ?backward⟩, fun zero => if_pos zero⟩
  case forward =>
    rw [exec_rotate (by omega), rotateDir, if_neg (by omega)]
    rfl
  case backward =>
    rw [exec_rotate (by omega), rotateDir, if_pos neg]
    rfl

/-- Settles O25: an operand in range is stored as given. -/
theorem acceptedSetSpeedWritesTheDelay : Obligations.AcceptedSetSpeedWritesTheDelay := fun d s h =>
  ⟨delayOperand d, delayOperand_toNat h, exec_setSpeed d s⟩

/-- Settles O26: a movement command begins a step or, `ROTATE 0`, does nothing. -/
theorem movementCommandsFrame : Obligations.MovementCommandsFrame := by
  intro i s t moves h
  rcases exec_cases i s with ⟨more, e, -, -⟩ | ⟨-, e⟩ | ⟨d, rfl, -⟩
  · cases e.symm.trans h
    exact ⟨rfl, rfl, rfl, _, rfl⟩
  · cases e.symm.trans h
    exact ⟨rfl, rfl, rfl, [], (List.append_nil _).symm⟩
  · simp at moves

/-- Settles O27: `SET_SPEED` writes one field. -/
theorem setSpeedFrame : Obligations.SetSpeedFrame := by
  intro d s t h
  cases (exec_setSpeed d s).symm.trans h
  exact ⟨rfl, rfl, rfl, rfl, rfl, rfl, rfl, rfl, rfl⟩

/-! ## The edge function (R131) -/

/-- An idle block accepts what is presented on an edge without reset (R76). -/
theorem acceptedAt_of_presented {s : State} (hr : s.port.rst = false) (hv : s.port.cmdValid = true)
    (hf : s.fsm = .idle) : acceptedAt s = some (decode s.port.word) := by
  simp [acceptedAt, State.cmdReady, hr, hv, hf]

/-- An edge with nothing presented accepts nothing. -/
theorem acceptedAt_of_quiet {s : State} (hv : s.port.cmdValid = false) : acceptedAt s = none := by
  simp [acceptedAt, hv]

/-- Settles O28: such an edge accepts the port's word. -/
theorem acceptingEdgeRunsTheDecodedCommand : Obligations.AcceptingEdgeRunsTheDecodedCommand := fun _ hr hv hf =>
  step_of_acceptedAt (acceptedAt_of_presented hr hv hf)

/-- Settles O29: the number of a word, read back, is that word, presented to an idle block. -/
theorem placedWordIsRunByTheNextStep : Obligations.PlacedWordIsRunByTheNextStep := by
  intro s w
  have number : PortIn.ofNumber (w.toNat % 2 ^ 40) = .present w := by
    rw [Nat.mod_eq_of_lt (w.isLt.trans (by decide)), PortIn.ofNumber, if_pos w.isLt, BitVec.ofNat_toNat,
      BitVec.setWidth_eq]
  rw [State.withFetchWord, number, step_of_acceptedAt (acceptedAt_of_presented rfl rfl rfl), withPort_port,
    word_present]
  rfl

/-- Settles O30: the branch of the edge function with nothing presented. -/
theorem idleEdgeChangesNothing : Obligations.IdleEdgeChangesNothing := fun _ hr hv hf => step_of_quiet hr hf hv

/-- `run()` at the end of a wait with a step still to begin (R134). -/
theorem progress_of_next_step {s : State} (hw : s.waitCnt = 0) (hl : s.stepsLeft ≠ 0#32) :
    progress s = beginStep s.dir { s with stepsLeft := s.stepsLeft - 1#32 } := by
  simp [progress, hw, hl]

/-- `run()` at the end of the last wait (R134). -/
theorem progress_of_last {s : State} (hw : s.waitCnt = 0) (hl : s.stepsLeft = 0#32) :
    progress s = { s with fsm := .idle } := by
  simp [progress, hw, hl]

/-- Settles O31: the three cases of `run()`. -/
theorem progressWhileRunning : Obligations.ProgressWhileRunning := by
  intro s hr hf
  refine ⟨step_of_waiting hr hf, fun hw hl => ⟨turn s.dir s.phaseIndex, ?index, ?begins⟩, fun hw hl => ?last⟩
  case index => cases s.dir <;> rfl
  case begins =>
    rw [step_of_run hr hf, progress_of_next_step (s := s.advance) hw hl]
    simp only [beginStep, State.advance, hf]
    rfl
  case last => rw [step_of_run hr hf, progress_of_last (s := s.advance) hw hl]; rfl

/-- Settles O32: the reset branch comes first and loads every register. -/
theorem resetEdgeLoadsTheResetValues : Obligations.ResetEdgeLoadsTheResetValues := fun _ h => step_of_rst h

/-- Settles O33: the fields of the state after reset; the free parameter `CYCLES_PER_US` is one more than a natural
number. -/
theorem resetStateHoldsTheResetValues : Obligations.ResetStateHoldsTheResetValues :=
  ⟨rfl, rfl, rfl, rfl, rfl, rfl, rfl, rfl, rfl, rfl, Nat.succ_pos Config.cyclesPerUsLessOne, rfl, rfl⟩

/-- Settles O35: the status outputs decide the value of `fsm`, which has two values. -/
theorem outputsFollowTheRegisters : Obligations.OutputsFollowTheRegisters := by
  refine fun s ins => ⟨rfl, rfl, decide_eq_true_iff, decide_eq_true_iff, ?_, rfl⟩
  cases h : s.fsm with
  | idle => simp [State.outputs, State.cmdReady, State.busy, h]
  | run => simp [State.outputs, State.cmdReady, State.busy, h]

/-- Two states that differ in the coming edge's command lines only make the same edge where those are not read: in
`RUN`, under reset, and with nothing presented. -/
theorem step_eq_of_lines_unread {s t : State} (later : s.advance = t.advance) (same : s.port.rst = t.port.rst)
    (h : s.fsm = .run ∨ s.port.rst = true ∨ (s.port.cmdValid = false ∧ t.port.cmdValid = false)) :
    step s = step t := by
  have fsm : s.advance.fsm = t.advance.fsm := congrArg State.fsm later
  rw [advance_fsm, advance_fsm] at fsm
  cases hr : s.port.rst with
  | true => rw [step_of_rst hr, step_of_rst (same ▸ hr), later]
  | false =>
    cases hf : s.fsm with
    | run => rw [step_of_run hr hf, step_of_run (same ▸ hr) (fsm ▸ hf), later]
    | idle =>
      obtain ⟨hvs, hvt⟩ : s.port.cmdValid = false ∧ t.port.cmdValid = false := by simpa [hf, hr] using h
      rw [step_of_quiet hr hf hvs, step_of_quiet (same ▸ hr) (fsm ▸ hf) hvt, later]

/-- Settles O36: the two sets of levels are gone after the edge. -/
theorem commandLinesMatterOnlyWhenAccepted : Obligations.CommandLinesMatterOnlyWhenAccepted := fun _ _ _ _ same h =>
  step_eq_of_lines_unread rfl same h

/-- Every command's acceptance answers a next state (R150). -/
theorem exec_total (i : Instr) (s : State) : ∃ t, exec i s = .next t := by
  rcases exec_cases i s with ⟨_, h, -, -⟩ | ⟨-, h⟩ | ⟨_, -, h⟩ <;> exact ⟨_, h⟩

/-- Every edge answers a next state (R150). -/
theorem step_total (s : State) : ∃ t, step s = .next t := by
  cases hr : s.port.rst with
  | true => exact ⟨_, step_of_rst hr⟩
  | false =>
    cases hf : s.fsm with
    | run => exact ⟨_, step_of_run hr hf⟩
    | idle =>
      cases hv : s.port.cmdValid with
      | false => exact ⟨_, step_of_quiet hr hf hv⟩
      | true => rw [step_of_acceptedAt (acceptedAt_of_presented hr hv hf)]; exact exec_total _ _

/-- Settles O37: the branches of the edge function and the arms of `exec`. -/
theorem nothingEverStops : Obligations.NothingEverStops := ⟨step_total, exec_total⟩

/-- `exec` keeps the parameters and the inputs. -/
theorem exec_frame {i : Instr} {s t : State} (h : exec i s = .next t) : t.params = s.params ∧ t.inputs = s.inputs := by
  rcases exec_cases i s with ⟨_, e, -, -⟩ | ⟨-, e⟩ | ⟨_, -, e⟩ <;> cases e.symm.trans h <;> exact ⟨rfl, rfl⟩

/-- `run()` keeps `delay_unit`, the parameters and the inputs. -/
theorem progress_frame (s : State) :
    (progress s).delayUnit = s.delayUnit ∧ (progress s).params = s.params ∧ (progress s).inputs = s.inputs := by
  rcases progress_cases s with ⟨-, e⟩ | ⟨-, -, e⟩ | ⟨-, -, e⟩ <;> rw [e] <;> exact ⟨rfl, rfl, rfl⟩

/-- Settles O42: over the four kinds of edge. -/
theorem edgesKeepParametersAndConsumeOneInput : Obligations.EdgesKeepParametersAndConsumeOneInput := by
  intro s t h
  rcases step_cases h with ⟨-, rfl⟩ | ⟨-, -, rfl⟩ | ⟨-, -, -, rfl⟩ | ⟨-, -, -, e⟩
  · exact ⟨rfl, rfl⟩
  · obtain ⟨-, params, inputs⟩ := progress_frame s.advance
    exact ⟨params, inputs⟩
  · exact ⟨rfl, rfl⟩
  · exact exec_frame e

/-- The inputs still to come hold no reset after an edge either. -/
theorem noReset_of_step {s t : State} (hn : s.noReset) (h : step s = .next t) : t.noReset :=
  noReset_of_tail hn (edgesKeepParametersAndConsumeOneInput s t h).2

end Sys2Proof.Machine

/-! Invariants: the phase invariant, the bounds of the hidden registers, what an edge may write, and the trace as an
observation (10_state.md R27, R28, R37; 20_memory.md R58; 00_scope.md R13). -/

namespace Sys2Proof.Machine

/-! ## The invariant (R27, R32, R33, R37) -/

/-- A step just begun meets the invariant if `steps_left` and the parameters do. -/
theorem inv_beginStep {s : State} (d : Dir) (left : s.stepsLeft.toNat < 2 ^ 31) (cycles : 1 ≤ s.params.cyclesPerUs) :
    (beginStep d s).Inv :=
  ⟨rfl, nofun, le_rfl, left, cycles⟩

/-- Reset establishes the invariant, whatever the parameters, if `CYCLES_PER_US` is positive. -/
theorem inv_resetRegisters {s : State} (cycles : 1 ≤ s.params.cyclesPerUs) : (resetRegisters s).Inv :=
  ⟨rfl, fun _ => rfl, Nat.zero_le _, Nat.two_pow_pos 31, cycles⟩

/-- The inputs play no part in the invariant. -/
theorem inv_advance {s : State} (h : s.Inv) : s.advance.Inv := h

/-- `run()` keeps the invariant. -/
theorem inv_progress {s : State} (h : s.Inv) (hf : s.fsm = .run) : (progress s).Inv := by
  obtain ⟨row, -, bound, left, cycles⟩ := h
  rcases progress_cases s with ⟨-, e⟩ | ⟨-, more, e⟩ | ⟨done, -, e⟩ <;> rw [e]
  · exact ⟨row, fun idle => absurd (hf.symm.trans idle) nofun, (Nat.sub_le _ _).trans bound, left, cycles⟩
  · obtain ⟨pred, -⟩ := pred_toNat s.stepsLeft more
    exact inv_beginStep _ (pred.trans_lt ((Nat.sub_le _ _).trans_lt left)) cycles
  · exact ⟨row, fun _ => done, bound, left, cycles⟩

/-- Accepting a command with an encoding keeps the invariant: the first step leaves fewer than `2^31`, and an idle block
waits for nothing, so that a new `delay_unit` bounds the wait. -/
theorem inv_exec {i : Instr} {s t : State} (hi : i.WellFormed) (h : s.Inv) (hf : s.fsm = .idle)
    (e : exec i s = .next t) : t.Inv := by
  rcases exec_cases i s with ⟨more, e', pos, rfl⟩ | ⟨-, e'⟩ | ⟨d, -, e'⟩ <;> cases e'.symm.trans e
  · obtain ⟨-, -, -, -, cycles⟩ := h
    have few := stepsOf_le hi
    exact inv_beginStep _ ((ofNat_pred_toNat few).trans_lt (by omega)) cycles
  · exact h
  · obtain ⟨row, quiet, -, left, cycles⟩ := h
    exact ⟨row, quiet, (quiet hf).trans_le (Nat.zero_le _), left, cycles⟩

/-- Settles O39: each of the four kinds of edge keeps the invariant. -/
theorem everyEdgeKeepsTheInvariant : Obligations.EveryEdgeKeepsTheInvariant := by
  intro s t h e
  rcases step_cases e with ⟨-, rfl⟩ | ⟨-, run, rfl⟩ | ⟨-, -, -, rfl⟩ | ⟨-, idle, -, accepted⟩
  · obtain ⟨-, -, -, -, cycles⟩ := h
    exact inv_resetRegisters cycles
  · exact inv_progress (inv_advance h) run
  · exact inv_advance h
  · exact inv_exec (decode_wellFormed _) (inv_advance h) idle accepted

/-- A launched block meets the invariant. -/
theorem inv_launch (p : Params) (ins : List PortIn) (cycles : 1 ≤ p.cyclesPerUs) : (State.launch p ins).Inv :=
  ⟨rfl, fun _ => rfl, Nat.zero_le _, Nat.two_pow_pos 31, cycles⟩

/-- Settles O38: the state after reset is a launched block. -/
theorem invariantHoldsAtReset : Obligations.InvariantHoldsAtReset :=
  inv_launch Config.params [] (Nat.succ_pos Config.cyclesPerUsLessOne)

/-- Every reachable state meets the invariant. -/
theorem inv_of_reachable {s : State} (h : Reachable s) : s.Inv := by
  induction h with
  | launch p ins cycles => exact inv_launch p ins cycles
  | edge _ moved ih => exact everyEdgeKeepsTheInvariant _ _ ih moved

/-- Every row of the table is one of the eight shown patterns, none of them all low. -/
theorem phaseTable_shown (p : PhaseIx) : phaseTable p ∈ shownPatterns ∧ phaseTable p ≠ 0#4 := by
  revert p; decide

/-- Settles O40: by the invariant the coils show a row of the table. -/
theorem reachableStatesShowTheirPhase : Obligations.ReachableStatesShowTheirPhase := by
  intro s h
  obtain ⟨row, quiet, -⟩ := inv_of_reachable h
  obtain ⟨shown, driven⟩ := phaseTable_shown s.phaseIndex
  exact ⟨row, row ▸ shown, row ▸ driven, quiet⟩

/-- Settles O41: the wait is at most that of the greatest delay; bit 31 of a number below `2^31` is 0. -/
theorem hiddenCountersFitTheirWidths : Obligations.HiddenCountersFitTheirWidths := by
  intro s width ⟨_, _, bound, left, _⟩ fits
  have delay : zext32 s.delayUnit ≤ 2 ^ 32 - 1 := Nat.le_sub_one_of_lt s.delayUnit.isLt
  exact ⟨(bound.trans (Nat.mul_le_mul_right _ delay)).trans_lt fits, Nat.testBit_lt_two_pow left⟩

/-! ## What an edge may write (R28, R58) -/

/-- What the edge from `s` to `t` does if it begins no step and resets nothing: index, coils and trace stay. -/
def KeepsPins (s t : State) : Prop :=
  t.phaseIndex = s.phaseIndex ∧ t.coilOut = s.coilOut ∧ t.trace = s.trace

/-- What the edge from `s` to `t` does if it begins a step in direction `d` (R132). -/
def BeginsStep (d : Dir) (s t : State) : Prop :=
  t.phaseIndex = turn d s.phaseIndex ∧ t.coilOut = phaseTable t.phaseIndex ∧ t.fsm = .run ∧
  t.waitCnt = waitCycles s.delayUnit s.params ∧ t.delayUnit = s.delayUnit ∧ t.params = s.params ∧
  t.trace = s.trace ++ stepEvents t.phaseIndex s.delayUnit

/-- An edge without reset keeps the pins or begins a step. -/
theorem keepsPins_or_beginsStep {s t : State} (hr : s.port.rst = false) (e : step s = .next t) :
    KeepsPins s t ∨ ∃ d, BeginsStep d s t := by
  rcases step_cases e with ⟨reset, -⟩ | ⟨-, -, rfl⟩ | ⟨-, -, -, rfl⟩ | ⟨-, -, -, accepted⟩
  · exact absurd (hr.symm.trans reset) nofun
  · rcases progress_cases s.advance with ⟨-, e⟩ | ⟨-, -, e⟩ | ⟨-, -, e⟩ <;> rw [e]
    · exact .inl ⟨rfl, rfl, rfl⟩
    · exact .inr ⟨s.dir, rfl, rfl, rfl, rfl, rfl, rfl, rfl⟩
    · exact .inl ⟨rfl, rfl, rfl⟩
  · exact .inl ⟨rfl, rfl, rfl⟩
  · rcases exec_cases (decode s.port.word) s.advance with ⟨_, e', -, -⟩ | ⟨-, e'⟩ | ⟨_, -, e'⟩ <;>
      cases e'.symm.trans accepted
    · exact .inr ⟨_, rfl, rfl, rfl, rfl, rfl, rfl, rfl⟩
    · exact .inl ⟨rfl, rfl, rfl⟩
    · exact .inl ⟨rfl, rfl, rfl⟩

/-- Settles O43: a step's new row differs from the shown row in one coil. -/
theorem anEdgeFlipsAtMostOneCoil : Obligations.AnEdgeFlipsAtMostOneCoil := by
  intro s t ⟨row, _⟩ hr e
  rcases keepsPins_or_beginsStep hr e with ⟨-, coils, -⟩ | ⟨d, index, coils, -⟩
  · exact .inl coils.symm
  · rw [atMostOneFlip, row, coils, index]
    exact .inr (turn_flips_one_coil d s.phaseIndex)

/-- A turn adds 1 or 7. -/
theorem turn_eq_add (d : Dir) (p : PhaseIx) : turn d p = p + 1#3 ∨ turn d p = p + 7#3 := by
  cases d
  · exact .inl rfl
  · exact .inr rfl

/-- Settles O44: an edge keeps the pins or begins a step; the reset branch appends nothing. -/
theorem pinsAreWrittenOnlyWhenAStepBegins : Obligations.PinsAreWrittenOnlyWhenAStepBegins := by
  refine fun s t e => ⟨fun reset => ?_, fun hr => ?_⟩
  · cases (step_of_rst reset).symm.trans e
    rfl
  · rcases keepsPins_or_beginsStep hr e with keeps | ⟨d, index, coils, run, wait, -, -, trace⟩
    · exact .inl keeps
    · exact .inr ⟨index ▸ turn_eq_add d s.phaseIndex, coils, run, wait, trace⟩

/-- Settles O45: of the four kinds of edge only reset and the acceptance of `SET_SPEED` write `delay_unit`, the latter
with its decoded operand, which is in range. -/
theorem onlySetSpeedAndResetWriteTheDelay : Obligations.OnlySetSpeedAndResetWriteTheDelay := by
  intro s t e changed
  rcases step_cases e with ⟨reset, -⟩ | ⟨-, -, rfl⟩ | ⟨-, -, -, rfl⟩ | ⟨hr, idle, valid, accepted⟩
  · exact .inl reset
  · exact absurd (progress_frame s.advance).1 changed
  · exact absurd rfl changed
  · have acceptance := acceptedAt_of_presented hr valid idle
    have inRange := decode_wellFormed s.port.word
    rcases exec_cases (decode s.port.word) s.advance with ⟨_, e', -, -⟩ | ⟨-, e'⟩ | ⟨d, word, e'⟩ <;>
      cases e'.symm.trans accepted
    · exact absurd rfl changed
    · exact absurd rfl changed
    · rw [word] at acceptance inRange
      exact .inr ⟨d, acceptance, delayOperand_toNat inRange⟩

/-! ## The trace is an observation (R13) -/

/-- The same state with more events before those of its trace. -/
def State.withHistory (earlier : List Event) (s : State) : State := { s with trace := earlier ++ s.trace }

theorem beginStep_withHistory (earlier : List Event) (d : Dir) (s : State) :
    beginStep d (s.withHistory earlier) = (beginStep d s).withHistory earlier := by
  simp only [beginStep, State.withHistory, List.append_assoc]

theorem startMove_withHistory (earlier : List Event) (d : Dir) (more : Word) (s : State) :
    startMove d more (s.withHistory earlier) = (startMove d more s).withHistory earlier :=
  beginStep_withHistory earlier d { s with dir := d, stepsLeft := more }

theorem progress_withHistory (earlier : List Event) (s : State) :
    progress (s.withHistory earlier) = (progress s).withHistory earlier := by
  rcases progress_cases s with ⟨hw, e⟩ | ⟨hw, hl, e⟩ | ⟨hw, hl, e⟩ <;> rw [e]
  · rw [progress_of_waiting (s := s.withHistory earlier) hw]; rfl
  · rw [progress_of_next_step (s := s.withHistory earlier) hw hl, ← beginStep_withHistory]; rfl
  · rw [progress_of_last (s := s.withHistory earlier) hw hl]; rfl

theorem exec_withHistory (earlier : List Event) {i : Instr} {s t : State} (h : exec i s = .next t) :
    exec i (s.withHistory earlier) = .next (t.withHistory earlier) := by
  cases i with
  | stepFwd => cases h; exact congrArg _ (startMove_withHistory earlier _ _ s)
  | stepBwd => cases h; exact congrArg _ (startMove_withHistory earlier _ _ s)
  | rotate n =>
    by_cases zero : n = 0
    · subst zero; cases h; rfl
    · rw [exec_rotate zero] at h ⊢
      cases h
      exact congrArg _ (startMove_withHistory earlier _ _ s)
  | setSpeed d => cases h; rfl

/-- An edge appends its events whatever events there were before, and they play no other part. -/
theorem step_withHistory (earlier : List Event) {s t : State} (h : step s = .next t) :
    step (s.withHistory earlier) = .next (t.withHistory earlier) := by
  rcases step_cases h with ⟨hr, rfl⟩ | ⟨hr, hf, rfl⟩ | ⟨hr, hf, hv, rfl⟩ | ⟨hr, hf, hv, e⟩
  · exact step_of_rst (s := s.withHistory earlier) hr
  · rw [step_of_run (s := s.withHistory earlier) hr hf]
    exact congrArg _ (progress_withHistory earlier s.advance)
  · exact step_of_quiet (s := s.withHistory earlier) hr hf hv
  · rw [step_of_acceptedAt (acceptedAt_of_presented (s := s.withHistory earlier) hr hv hf)]
    exact exec_withHistory earlier e

/-- Several edges append their events whatever events there were before. -/
theorem runEdges_withHistory (earlier : List Event) (n : Nat) {s t : State} (h : runEdges n s = .next t) :
    runEdges n (s.withHistory earlier) = .next (t.withHistory earlier) := by
  induction n generalizing s with
  | zero => cases h; rfl
  | succ n ih =>
    obtain ⟨u, first, rest⟩ := runEdges_first h
    rw [runEdges_succ n (step_withHistory earlier first)]
    exact ih rest

/-- Settles O46: both edges are the edge of the state with an empty trace, with the events before put back. -/
theorem theTraceIsOnlyObserved : Obligations.TheTraceIsOnlyObserved := by
  intro s earlier
  obtain ⟨t, h⟩ := step_total { s with trace := [] }
  have with_s := step_withHistory s.trace h
  have with_earlier := step_withHistory earlier h
  simp only [State.withHistory, List.append_nil] at with_s with_earlier
  exact ⟨t, t.trace, with_s, with_earlier⟩

/-- A number of edges always answers a next state (R150). -/
theorem runEdges_total (n : Nat) (s : State) : ∃ t, runEdges n s = .next t := by
  induction n generalizing s with
  | zero => exact ⟨s, rfl⟩
  | succ n ih =>
    obtain ⟨u, h⟩ := step_total s
    rw [runEdges_succ n h]
    exact ih u

/-- Settles O34: the state after the reset edge is the launched block with the events before put back. -/
theorem resetLeavesNoMemoryOfTheCommand : Obligations.ResetLeavesNoMemoryOfTheCommand := by
  intro s p ins n inputs reset
  have rst : s.port.rst = true := by rw [State.port, inputs]; exact reset
  have fresh : resetRegisters s.advance = (State.launch s.params ins).withHistory s.trace := by
    simp [resetRegisters, State.advance, State.withHistory, State.launch, State.reset, inputs]
  obtain ⟨u, run⟩ := runEdges_total n (State.launch s.params ins)
  refine ⟨u, run, ?_⟩
  rw [runEdges_succ n (step_of_rst rst), fresh]
  exact runEdges_withHistory s.trace n run

end Sys2Proof.Machine

/-! Pin writes one by one (20_memory.md R58, 40_apply_phase.md R91). -/

namespace Sys2Proof.Machine

/-- Settles O9: checked over the eight rows. -/
theorem phaseTableProperties : Obligations.PhaseTableProperties := by
  unfold Obligations.PhaseTableProperties
  decide

/-- Writing a bit of a row over a pattern that differs from it in one coil either completes the row or, at another coil,
changes nothing. -/
theorem setCoil_of_one_flip :
    ∀ (row : Pattern) (flipped k : Fin 4), setCoil (row ^^^ 1#4 <<< flipped.val) k (row.getLsbD k.val) =
      if k = flipped then row else row ^^^ 1#4 <<< flipped.val := by
  decide

/-- Writing a bit of the row already shown changes nothing. -/
theorem setCoil_getLsbD_self : ∀ (row : Pattern) (k : Fin 4), setCoil row k (row.getLsbD k.val) = row := by
  decide

@[simp] theorem pinWrite_coilOut (k : Fin 4) (level : Bool) (o : OpState) :
    (pinWrite k level o).coilOut = setCoil o.coilOut k level := rfl

/-- Writing the bits `ks` of a row one after another (R58). -/
def writeBits (row : Pattern) (ks : List (Fin 4)) (o : OpState) : OpState :=
  ks.foldl (fun u k => pinWrite k (row.getLsbD k.val) u) o

/-- Once the row is shown, further writes of its bits leave it. -/
theorem writeBits_of_shown {row : Pattern} (ks : List (Fin 4)) {o : OpState} (h : o.coilOut = row) :
    (writeBits row ks o).coilOut = row := by
  induction ks generalizing o with
  | nil => exact h
  | cons k ks ih => exact ih (by rw [pinWrite_coilOut, h, setCoil_getLsbD_self])

/-- From a pattern one coil away, the row is shown as soon as that coil is written, and the old pattern until then. -/
theorem writeBits_of_one_flip {row : Pattern} {flipped : Fin 4} (ks : List (Fin 4)) {o : OpState}
    (h : o.coilOut = row ^^^ 1#4 <<< flipped.val) :
    (writeBits row ks o).coilOut = if flipped ∈ ks then row else o.coilOut := by
  induction ks generalizing o with
  | nil => rfl
  | cons k ks ih =>
    have first : (pinWrite k (row.getLsbD k.val) o).coilOut = if k = flipped then row else o.coilOut := by
      rw [pinWrite_coilOut, h, setCoil_of_one_flip]
    change (writeBits row ks (pinWrite k (row.getLsbD k.val) o)).coilOut = _
    by_cases hk : k = flipped
    · rw [if_pos hk] at first
      rw [writeBits_of_shown ks first, if_pos (by simp [hk])]
    · rw [if_neg hk] at first
      rw [ih (first.trans h), first]
      simp [Ne.symm hk]

/-- Settles O11: neighbouring rows differ in one coil, and only the write of that coil changes what is shown. -/
theorem pinWritesInAnyOrderShowNoThirdPattern : Obligations.PinWritesInAnyOrderShowNoThirdPattern := by
  intro d o ks shown row
  obtain ⟨flipped, differ⟩ := turn_flips_one_coil d o.phaseIndex
  have old : o.coilOut = row ^^^ 1#4 <<< flipped.val := by
    rw [shown, ← differ, BitVec.xor_comm, BitVec.xor_assoc, BitVec.xor_self, BitVec.xor_zero]
  have writes := writeBits_of_one_flip ks old
  refine ⟨?_, fun all => writes.trans (if_pos (all flipped))⟩
  by_cases hf : flipped ∈ ks
  · exact .inr (writes.trans (if_pos hf))
  · exact .inl (writes.trans (if_neg hf))

end Sys2Proof.Machine

/-! Steps and rotations at the operation level (41_step.md R103, R104; 42_rotate.md R111 to R115; 43_set_speed.md
R121). -/

namespace Sys2Proof.Machine

/-! ## Single steps in a row (R103, R104) -/

/-- The commands `n` times the same single step are `n` steps in its direction. -/
theorem runCommands_replicate {i : Instr} {d : Dir} (single : ∀ o, opExec i o = microStep d o) (n : Nat)
    (o : OpState) : runCommands (List.replicate n i) o = repeatStep n d o := by
  induction n generalizing o with
  | zero => rfl
  | succ n ih =>
    rw [List.replicate_succ, runCommands, single, ih]
    rfl

theorem runCommands_replicate_stepFwd (n : Nat) (o : OpState) :
    runCommands (List.replicate n .stepFwd) o = repeatStep n .fwd o :=
  runCommands_replicate (fun _ => rfl) n o

theorem runCommands_replicate_stepBwd (n : Nat) (o : OpState) :
    runCommands (List.replicate n .stepBwd) o = repeatStep n .bwd o :=
  runCommands_replicate (fun _ => rfl) n o

/-- `m` forward increments add `m`. -/
theorem mul_fwd_increment (m : PhaseIx) : m * Dir.fwd.increment = m := BitVec.mul_one m

/-- `m` backward increments, each minus 1 modulo 8, subtract `m`. -/
theorem add_mul_bwd_increment (p m : PhaseIx) : p + m * Dir.bwd.increment = p - m := by
  revert p m; decide

/-- Settles O14: the closed form of repeated steps with the increments 1 and 7, that is minus 1, modulo 8. -/
theorem consecutiveStepsCompose : Obligations.ConsecutiveStepsCompose := by
  intro n o
  rw [runCommands_replicate_stepFwd, runCommands_replicate_stepBwd]
  obtain ⟨fwdIndex, -, -, fwdTrace⟩ := repeatStep_fields n .fwd o
  obtain ⟨bwdIndex, -, -, bwdTrace⟩ := repeatStep_fields n .bwd o
  simp only [mul_fwd_increment] at fwdIndex fwdTrace
  simp only [add_mul_bwd_increment] at bwdIndex bwdTrace
  refine ⟨⟨?forward, fwdTrace⟩, ?backward, bwdTrace⟩
  case forward =>
    rw [fwdIndex, BitVec.toNat_add, BitVec.toNat_ofNat]
    omega
  case backward =>
    rw [bwdIndex, BitVec.toNat_sub, BitVec.toNat_ofNat]
    omega

/-- Repeated steps show the row of their index if the state before did. -/
theorem repeatStep_shows_row (n : Nat) (d : Dir) {o : OpState} (h : o.coilOut = phaseTable o.phaseIndex) :
    (repeatStep n d o).coilOut = phaseTable (repeatStep n d o).phaseIndex := by
  obtain ⟨-, coils, -, -⟩ := repeatStep_fields n d o
  rw [coils]
  split
  · next zero => rw [zero, h]; rfl
  · rfl

/-- Each step appends five events (R100). -/
theorem repeatStep_trace_length (n : Nat) (d : Dir) (o : OpState) :
    (repeatStep n d o).trace.length = o.trace.length + 5 * n := by
  induction n generalizing o with
  | zero => rfl
  | succ n ih =>
    rw [repeatStep, ih, microStep_eq, List.length_append]
    simp only [stepEvents, applyEvents, List.length_append, List.length_cons, List.length_nil]
    omega

/-- A turn and the turn the other way cancel. -/
theorem turn_turn_opposite (p : PhaseIx) : turn .bwd (turn .fwd p) = p ∧ turn .fwd (turn .bwd p) = p := by
  revert p; decide

/-- Two steps whose turns cancel restore index and coils and append ten events. -/
theorem microStep_microStep_cancel {d e : Dir} {o : OpState} (back : turn e (turn d o.phaseIndex) = o.phaseIndex)
    (row : o.coilOut = phaseTable o.phaseIndex) :
    (microStep e (microStep d o)).phaseIndex = o.phaseIndex ∧
    (microStep e (microStep d o)).coilOut = o.coilOut ∧
    (microStep e (microStep d o)).trace.length = o.trace.length + 10 := by
  refine ⟨?_, ?_, ?_⟩
  · simp only [microStep_eq, back]
  · simp only [microStep_eq, back, row]
  · exact (repeatStep_trace_length 1 e (microStep d o)).trans
      (congrArg (· + 5) (repeatStep_trace_length 1 d o))

/-- Settles O15: the turns cancel in either order. -/
theorem oppositeStepsCancel : Obligations.OppositeStepsCancel := fun o row =>
  ⟨microStep_microStep_cancel (turn_turn_opposite o.phaseIndex).1 row,
    microStep_microStep_cancel (turn_turn_opposite o.phaseIndex).2 row⟩

/-! ## Rotations (R111 to R115) -/

/-- A rotation is its steps in the direction of its sign; `ROTATE 0` is no step. -/
theorem opExec_rotate_eq_repeatStep (n : Int) (o : OpState) :
    opExec (.rotate n) o = repeatStep n.natAbs (rotateDir n) o := by
  by_cases zero : n = 0
  · subst zero; rfl
  · exact opExec_eq_repeatStep (.rotate n) o (Int.natAbs_pos.mpr zero)

/-- Settles O17: both sides are the same number of steps; no step has no direction. -/
theorem rotateEqualsSingleSteps : Obligations.RotateEqualsSingleSteps := by
  intro k o
  rw [opExec_rotate_eq_repeatStep, opExec_rotate_eq_repeatStep, runCommands_replicate_stepFwd,
    runCommands_replicate_stepBwd, Int.natAbs_neg, Int.natAbs_natCast]
  refine ⟨by rw [rotateDir, if_neg (by omega)], ?_⟩
  cases k with
  | zero => rfl
  | succ k => rw [rotateDir, if_pos (by omega)]

/-- The index after a rotation is `(p + steps) mod 8`, also for no step. -/
theorem opExec_rotate_phaseIndex (n : Int) (o : OpState) :
    (opExec (.rotate n) o).phaseIndex = o.phaseIndex + BitVec.ofInt 3 n := by
  by_cases zero : n = 0
  · subst zero; exact (BitVec.add_zero _).symm
  · rw [opExec_rotate zero, BitVec.ofInt_add, BitVec.ofInt_natCast, BitVec.ofNat_toNat, BitVec.setWidth_eq]

/-- A rotation shows the row of its index if the state before did. -/
theorem opExec_rotate_shows_row (n : Int) {o : OpState} (h : o.coilOut = phaseTable o.phaseIndex) :
    (opExec (.rotate n) o).coilOut = phaseTable (opExec (.rotate n) o).phaseIndex := by
  rw [opExec_rotate_eq_repeatStep]
  exact repeatStep_shows_row _ _ h

/-- Settles O18: the two index increments cancel, and the coils follow the index; `2^31` is a multiple of 8, and no
operand in range. -/
theorem rotateRoundTrip : Obligations.RotateRoundTrip := by
  intro o row
  have back : ∀ k : Int, (opExec (.rotate (-k)) (opExec (.rotate k) o)).phaseIndex = o.phaseIndex := fun k => by
    rw [opExec_rotate_phaseIndex, opExec_rotate_phaseIndex, BitVec.add_assoc, ← BitVec.ofInt_add, Int.add_right_neg]
    exact BitVec.add_zero _
  refine ⟨fun k => ⟨back k, ?coils⟩, ?full, by decide⟩
  case coils => rw [opExec_rotate_shows_row _ (opExec_rotate_shows_row k row), back k, row]
  case full =>
    rw [opExec_rotate_phaseIndex]
    exact BitVec.add_zero _

/-- The waits of two traces one after the other add up. -/
theorem totalWait_append (a b : List Event) : totalWait (a ++ b) = totalWait a + totalWait b := by
  induction a with
  | nil => exact (Nat.zero_add _).symm
  | cons event a ih =>
    cases event with
    | pinWrite k level => exact ih
    | wait d => rw [List.cons_append, totalWait, totalWait, ih, Nat.add_assoc]

/-- A step waits `delay_unit` once. -/
theorem totalWait_stepEvents (p : PhaseIx) (delay : Word) : totalWait (stepEvents p delay) = delay.toNat := rfl

/-- Repeated steps wait `delay_unit` each. -/
theorem totalWait_repeatStep (n : Nat) (d : Dir) (o : OpState) :
    totalWait (repeatStep n d o).trace = totalWait o.trace + n * o.delayUnit.toNat := by
  induction n generalizing o with
  | zero => simp [repeatStep]
  | succ n ih =>
    rw [repeatStep, ih, microStep_eq, totalWait_append, totalWait_stepEvents]
    ring

/-- Settles O19: a rotation is `abs(steps)` steps. -/
theorem rotationWaitsAddUp : Obligations.RotationWaitsAddUp := fun n o => by
  rw [opExec_rotate_eq_repeatStep]
  exact totalWait_repeatStep n.natAbs (rotateDir n) o

/-- Settles O20: five events a step, and `abs(steps) - 1`, at most `2^31 - 1`, is stored without wrapping. -/
theorem rotationCountIsExact : Obligations.RotationCountIsExact := by
  intro n h
  have few : n.natAbs ≤ 2 ^ 31 := stepsOf_le h
  refine ⟨fun o => ?events, fun nonzero s t e => ?left⟩
  case events =>
    rw [opExec_rotate_eq_repeatStep]
    exact repeatStep_trace_length n.natAbs (rotateDir n) o
  case left =>
    cases (exec_rotate nonzero s).symm.trans e
    have left : (stepsAfterFirst n).toNat = n.natAbs - 1 := ofNat_pred_toNat few
    rw [startMove_stepsLeft, left]
    omega

/-! ## The delay of later steps (R121) -/

/-- The wait of a step is the `delay_unit` that it read. -/
theorem eq_of_wait_mem_stepEvents {x : Nat} {p : PhaseIx} {delay : Word} (h : Event.wait x ∈ stepEvents p delay) :
    x = delay.toNat := by
  simpa [stepEvents, applyEvents, zext32] using h

/-- A command other than `SET_SPEED` keeps `delay_unit` and appends events whose waits are that delay. -/
theorem opExec_appends_waits {i : Instr} (h : ∀ d, i ≠ .setSpeed d) (o : OpState) :
    (opExec i o).delayUnit = o.delayUnit ∧
    ∃ events, (opExec i o).trace = o.trace ++ events ∧ ∀ x, Event.wait x ∈ events → x = o.delayUnit.toNat := by
  have steps : opExec i o = repeatStep (stepsOf i) (dirOf i) o := by
    cases i with
    | stepFwd => rfl
    | stepBwd => rfl
    | rotate n => exact opExec_rotate_eq_repeatStep n o
    | setSpeed d => exact absurd rfl (h d)
  obtain ⟨-, -, delay, trace⟩ := repeatStep_fields (stepsOf i) (dirOf i) o
  rw [steps]
  refine ⟨delay, _, trace, fun x hx => ?_⟩
  obtain ⟨j, -, hj⟩ := List.mem_flatMap.mp hx
  exact eq_of_wait_mem_stepEvents hj

/-- Commands without `SET_SPEED` append events whose waits are the delay they found. -/
theorem runCommands_appends_waits (rest : List Instr) (h : ∀ i ∈ rest, ∀ d, i ≠ .setSpeed d) (o : OpState) :
    ∃ later, (runCommands rest o).trace = o.trace ++ later ∧ ∀ x, Event.wait x ∈ later → x = o.delayUnit.toNat := by
  induction rest generalizing o with
  | nil => exact ⟨[], (List.append_nil _).symm, nofun⟩
  | cons i rest ih =>
    obtain ⟨delay, events, trace, waits⟩ := opExec_appends_waits (h i List.mem_cons_self) o
    obtain ⟨later, traceLater, waitsLater⟩ := ih (fun j hj => h j (List.mem_cons_of_mem i hj)) (opExec i o)
    refine ⟨events ++ later, ?_, fun x hx => ?_⟩
    · rw [runCommands, traceLater, trace, List.append_assoc]
    · rcases List.mem_append.mp hx with first | after
      · exact waits x first
      · exact delay ▸ waitsLater x after

/-- Settles O22: the commands after `SET_SPEED` find the delay it stored. -/
theorem newDelayGovernsOnlyLaterSteps : Obligations.NewDelayGovernsOnlyLaterSteps := by
  intro d rest o h others
  obtain ⟨later, trace, waits⟩ := runCommands_appends_waits rest others (opExec (.setSpeed d) o)
  exact ⟨later, trace, fun x hx => (waits x hx).trans (delayOperand_toNat h)⟩

end Sys2Proof.Machine

/-! The text of commands and of the other lines of a listing (30_encoding.md R79, R80). -/

namespace Sys2Proof.Machine

/-! ## What is accepted as a command is in range -/

/-- A command stands in the text of a step command or of `NOP`, or it has passed the range check. -/
theorem wellFormed_of_parseLine {cs : List Char} {i : Instr} (h : parseLine cs = .ok (.cmd i)) : i.WellFormed := by
  have checked : ∀ j : Instr, inRange j = .ok (.cmd i) → i.WellFormed := fun j e => by
    obtain ⟨ok, line⟩ := (inRange_eq_ok j _).mp e
    cases line
    exact ok
  unfold parseLine at h
  iterate 3
    split at h
    · cases h; rfl
  split at h
  · cases h
  split at h
  · split at h
    · exact checked _ h
    · cases h
  split at h
  · split at h
    · exact checked _ h
    · cases h
  split at h
  · split at h <;> cases h
  · cases h

/-! ## Reading an operand -/

/-- What follows a key is found after it. -/
theorem after_append (key rest : List Char) : after key (key ++ rest) = some rest := by
  induction key with
  | nil => rfl
  | cons k key ih => simpa [after] using ih

/-- The operand after the mnemonic and a space. -/
theorem operandOf_mnemonic (mnemonic call : String) (operand : List Char) :
    operandOf mnemonic call ((mnemonic.toList ++ [' ']) ++ operand) = some operand := by
  rw [operandOf, after_append]

/-- The operand between the parentheses of the source's spelling, if that does not begin with the mnemonic. -/
theorem operandOf_call {mnemonic call : String} {operand : List Char}
    (other : after (mnemonic.toList ++ [' ']) ((call.toList ++ ['(']) ++ (operand ++ [')'])) = none) :
    operandOf mnemonic call ((call.toList ++ ['(']) ++ (operand ++ [')'])) = some operand := by
  rw [operandOf, other]
  simp only [after_append, List.getLast?_append, List.getLast?_singleton, Option.some_or, if_true,
    List.dropLast_concat]

/-! ## Reading a line with an operand -/

/-- The text is none of the lines without an operand (R79, R80). -/
def HasOperand (cs : List Char) : Prop :=
  ¬ (cs = "STEP_FWD".toList ∨ cs = "step_forward()".toList) ∧
  ¬ (cs = "STEP_BWD".toList ∨ cs = "step_backward()".toList) ∧ cs ≠ "NOP".toList ∧ cs ≠ "RESET".toList

/-- A line whose operand for `ROTATE` is an integer stands for that rotation, if it is in range. -/
theorem parseLine_of_rotate {cs operand : List Char} {n : Int} (h : HasOperand cs)
    (key : operandOf "ROTATE" "rotate" cs = some operand) (number : integerOf operand = some n) :
    parseLine cs = inRange (.rotate n) := by
  obtain ⟨fwd, bwd, nop, reset⟩ := h
  rw [parseLine, if_neg fwd, if_neg bwd, if_neg nop, if_neg reset]
  simp only [key, number]

/-- A line whose operand for `SET_SPEED` is a natural number stands for that command, if it is in range. -/
theorem parseLine_of_setSpeed {cs operand : List Char} {d : Nat} (h : HasOperand cs)
    (other : operandOf "ROTATE" "rotate" cs = none) (key : operandOf "SET_SPEED" "set_speed" cs = some operand)
    (number : naturalOf operand = some d) : parseLine cs = inRange (.setSpeed d) := by
  obtain ⟨fwd, bwd, nop, reset⟩ := h
  rw [parseLine, if_neg fwd, if_neg bwd, if_neg nop, if_neg reset]
  simp only [other, key, number]

/-- A line whose operand for `PAUSE` is a natural number is that pause. -/
theorem parseLine_of_pause {cs operand : List Char} {t : Nat} (h : HasOperand cs)
    (rotate : operandOf "ROTATE" "rotate" cs = none) (setSpeed : operandOf "SET_SPEED" "set_speed" cs = none)
    (key : after "PAUSE ".toList cs = some operand) (number : naturalOf operand = some t) :
    parseLine cs = .ok (.pause t) := by
  obtain ⟨fwd, bwd, nop, reset⟩ := h
  rw [parseLine, if_neg fwd, if_neg bwd, if_neg nop, if_neg reset]
  simp only [rotate, setSpeed, key, number]

/-- A rotation passes the range check within the bounds of R79. -/
theorem inRange_rotate (n : Int) :
    inRange (.rotate n) =
      if -2147483648 ≤ n ∧ n ≤ 2147483647 then .ok (.cmd (.rotate n)) else .error .operandOutOfRange :=
  if_congr (wellFormed_rotate_iff n) rfl rfl

/-- A `SET_SPEED` passes the range check up to the bound of R79. -/
theorem inRange_setSpeed (d : Nat) :
    inRange (.setSpeed d) = if d ≤ 4294967295 then .ok (.cmd (.setSpeed d)) else .error .operandOutOfRange :=
  if_congr (wellFormed_setSpeed_iff d) rfl rfl

/-- The decimal text of a natural number is read as that number. -/
theorem naturalOf_toString (d : Nat) : naturalOf (toString d).toList = some d := by
  rw [show toString d = d.repr from rfl, Nat.repr, String.toList_ofList, naturalOf_toDigits]

theorem parseLine_rotate_mnemonic (n : Int) :
    parseLine ("ROTATE " ++ toString n).toList = inRange (.rotate n) := by
  rw [String.toList_append]
  exact parseLine_of_rotate (by simp [HasOperand]) (operandOf_mnemonic "ROTATE" "rotate" _) (integerOf_repr n)

theorem parseLine_rotate_call (n : Int) :
    parseLine ("rotate(" ++ toString n ++ ")").toList = inRange (.rotate n) := by
  rw [String.toList_append, String.toList_append, List.append_assoc]
  exact parseLine_of_rotate (by simp [HasOperand]) (operandOf_call (call := "rotate") rfl) (integerOf_repr n)

theorem parseLine_setSpeed_mnemonic (d : Nat) :
    parseLine ("SET_SPEED " ++ toString d).toList = inRange (.setSpeed d) := by
  rw [String.toList_append]
  exact parseLine_of_setSpeed (by simp [HasOperand]) rfl (operandOf_mnemonic "SET_SPEED" "set_speed" _)
    (naturalOf_toString d)

theorem parseLine_setSpeed_call (d : Nat) :
    parseLine ("set_speed(" ++ toString d ++ ")").toList = inRange (.setSpeed d) := by
  rw [String.toList_append, String.toList_append, List.append_assoc]
  exact parseLine_of_setSpeed (by simp [HasOperand]) rfl (operandOf_call (call := "set_speed") rfl)
    (naturalOf_toString d)

theorem parseLine_pause (t : Nat) : parseLine ("PAUSE " ++ toString t).toList = .ok (.pause t) := by
  rw [String.toList_append]
  exact parseLine_of_pause (by simp [HasOperand]) rfl rfl (after_append _ _) (naturalOf_toString t)

/-- Settles O7: what passes is in range; each spelling with an operand is read by its key and passes the range check
within the bounds; the remaining texts are fixed. -/
theorem acceptedTextHasAnEncoding : Obligations.AcceptedTextHasAnEncoding := by
  refine ⟨fun _ _ => wellFormed_of_parseLine, fun n => ?rotate, fun d => ?setSpeed, by decide, by decide, by decide,
    parseLine_pause, by decide, by decide⟩
  case rotate =>
    rw [List.forall_mem_cons, List.forall_mem_singleton, parseLine_rotate_mnemonic, parseLine_rotate_call]
    exact ⟨inRange_rotate n, inRange_rotate n⟩
  case setSpeed =>
    rw [List.forall_mem_cons, List.forall_mem_singleton, parseLine_setSpeed_mnemonic, parseLine_setSpeed_call]
    exact ⟨inRange_setSpeed d, inRange_setSpeed d⟩

end Sys2Proof.Machine

/-! A command in progress (45_cycle_fsm.md section 2): the state after any number of edges in `RUN`, in closed form.
Here `T` is the wait of a step in clock cycles (R135), so that a step takes `T + 1` edges. -/

namespace Sys2Proof.Machine

/-! ## Runs of a busy block -/

/-- One edge more. -/
theorem runEdges_succ_last {n : Nat} {s t u : State} (run : runEdges n s = .next t) (last : step t = .next u) :
    runEdges (n + 1) s = .next u :=
  (runEdges_add n 1 run).trans (runEdges_succ 0 last)

/-- The commands accepted on the first of several edges and on the others. -/
theorem acceptedRun_succ (n : Nat) {s u : State} (first : step s = .next u) :
    acceptedRun (n + 1) s = (acceptedAt s).toList ++ acceptedRun n u := by
  simp [acceptedRun, first]

/-- The command accepted on a single edge. -/
theorem acceptedRun_one (s : State) : acceptedRun 1 s = (acceptedAt s).toList := by
  obtain ⟨u, h⟩ := step_total s
  exact (acceptedRun_succ 0 h).trans (List.append_nil _)

/-- Several edges keep the parameters and consume as many inputs. -/
theorem runEdges_frame (n : Nat) {s t : State} (h : runEdges n s = .next t) :
    t.params = s.params ∧ t.inputs = s.inputs.drop n := by
  induction n generalizing s with
  | zero => cases h; exact ⟨rfl, rfl⟩
  | succ n ih =>
    obtain ⟨u, first, rest⟩ := runEdges_first h
    obtain ⟨params, inputs⟩ := edgesKeepParametersAndConsumeOneInput s u first
    obtain ⟨params', inputs'⟩ := ih rest
    exact ⟨params'.trans params, by rw [inputs', inputs, List.drop_tail]⟩

/-- The inputs still to come hold no reset after several edges either. -/
theorem noReset_of_runEdges {n : Nat} {s t : State} (hn : s.noReset) (h : runEdges n s = .next t) : t.noReset := by
  intro p hp
  rw [(runEdges_frame n h).2] at hp
  exact hn p (List.mem_of_mem_drop hp)

/-- The same state with other inputs to come. -/
def State.withInputs (ins : List PortIn) (s : State) : State := { s with inputs := ins }

/-- `run()` neither reads nor writes the inputs. -/
theorem progress_withInputs (ins : List PortIn) (s : State) :
    progress (s.withInputs ins) = (progress s).withInputs ins := by
  rcases progress_cases s with ⟨hw, e⟩ | ⟨hw, hl, e⟩ | ⟨hw, hl, e⟩ <;> rw [e]
  · exact progress_of_waiting (s := s.withInputs ins) hw
  · exact progress_of_next_step (s := s.withInputs ins) hw hl
  · exact progress_of_last (s := s.withInputs ins) hw hl

/-- As long as the block stays in `RUN`, its edges without reset are `run()` again and again, whatever is presented. -/
theorem runEdges_of_busy {n : Nat} {s : State} (hn : s.noReset) (busy : ∀ k < n, (progress^[k] s).fsm = .run) :
    runEdges n s = .next ((progress^[n] s).withInputs (s.inputs.drop n)) := by
  induction n with
  | zero => rfl
  | succ n ih =>
    have before := ih fun k hk => busy k (Nat.lt_succ_of_lt hk)
    have last := step_of_run (port_rst_of_noReset (noReset_of_runEdges hn before)) (busy n (Nat.lt_succ_self n))
    rw [runEdges_succ_last before last, Function.iterate_succ_apply', ← List.tail_drop]
    exact congrArg _ (progress_withInputs _ (progress^[n] s))

/-- A block that stays in `RUN` accepts nothing. -/
theorem acceptedRun_of_busy {n : Nat} {s : State} (hn : s.noReset) (busy : ∀ k < n, (progress^[k] s).fsm = .run) :
    acceptedRun n s = [] := by
  induction n with
  | zero => rfl
  | succ n ih =>
    have busy' : ∀ k < n, (progress^[k] s).fsm = .run := fun k hk => busy k (Nat.lt_succ_of_lt hk)
    rw [acceptedRun_add n 1 (runEdges_of_busy hn busy'), ih busy', acceptedRun_one,
      acceptedAt_of_run (s := (progress^[n] s).withInputs (s.inputs.drop n)) (busy n (Nat.lt_succ_self n))]
    rfl

/-! ## The steps of a command in closed form -/

/-- A step has just begun: the block is in `RUN` with the whole wait `T` ahead. -/
structure Begun (T : Nat) (s : State) : Prop where
  run   : s.fsm = .run
  wait  : s.waitCnt = T
  whole : waitCycles s.delayUnit s.params = T

/-- The state `j` steps later, at the same point of its step: `j` steps of the operation level in direction `dir`, and
`j` less to begin. -/
def State.afterSteps (j : Nat) (s : State) : State :=
  { s with
    phaseIndex := (repeatStep j s.dir s.op).phaseIndex
    coilOut    := (repeatStep j s.dir s.op).coilOut
    stepsLeft  := s.stepsLeft - BitVec.ofNat 32 j
    trace      := (repeatStep j s.dir s.op).trace }

/-- The operation level's view of `j` steps later. -/
theorem afterSteps_op (j : Nat) (s : State) : (s.afterSteps j).op = repeatStep j s.dir s.op := by
  obtain ⟨-, -, delay, -⟩ := repeatStep_fields j s.dir s.op
  rw [State.op, State.afterSteps, ← op_delayUnit, ← delay]

theorem afterSteps_zero (s : State) : s.afterSteps 0 = s := by
  simp [State.afterSteps, repeatStep]

theorem afterSteps_succ (j : Nat) (s : State) : (s.afterSteps j).afterSteps 1 = s.afterSteps (j + 1) := by
  have view : repeatStep 1 s.dir (s.afterSteps j).op = repeatStep (j + 1) s.dir s.op := by
    rw [afterSteps_op, repeatStep_add]
  have left : s.stepsLeft - BitVec.ofNat 32 j - BitVec.ofNat 32 1 = s.stepsLeft - BitVec.ofNat 32 (j + 1) := by
    rw [BitVec.ofNat_add, sub_sub]
  rw [State.afterSteps, show (s.afterSteps j).dir = s.dir from rfl, view,
    show (s.afterSteps j).stepsLeft = s.stepsLeft - BitVec.ofNat 32 j from rfl, left]
  rfl

theorem afterSteps_stepsLeft {j : Nat} {s : State} (hj : j ≤ s.stepsLeft.toNat) :
    (s.afterSteps j).stepsLeft.toNat = s.stepsLeft.toNat - j := by
  have := s.stepsLeft.isLt
  rw [State.afterSteps, BitVec.toNat_sub, BitVec.toNat_ofNat]
  omega

theorem Begun.afterSteps {T : Nat} {s : State} (h : Begun T s) (j : Nat) : Begun T (s.afterSteps j) :=
  ⟨h.run, h.wait, h.whole⟩

/-- `run()` during a wait, `k` times. -/
theorem progress_iterate_of_waiting (k : Nat) {s : State} (hk : k ≤ s.waitCnt) :
    progress^[k] s = { s with waitCnt := s.waitCnt - k } := by
  induction k with
  | zero => rfl
  | succ k ih =>
    rw [Function.iterate_succ_apply', ih (Nat.le_of_succ_le hk), progress_of_waiting (Nat.sub_ne_zero_of_lt hk)]
    rfl

/-- The edges of one step with a step left to begin: its wait, and the edge that begins the next step. -/
theorem progress_iterate_step {T : Nat} {s : State} (h : Begun T s) (more : s.stepsLeft ≠ 0#32) :
    progress^[T + 1] s = s.afterSteps 1 := by
  obtain ⟨run, wait, whole⟩ := h
  rw [Function.iterate_succ_apply', progress_iterate_of_waiting T wait.ge,
    progress_of_next_step (s := { s with waitCnt := s.waitCnt - T }) (Nat.sub_eq_zero_of_le wait.le) more]
  simp [beginStep, State.afterSteps, repeatStep, microStep_eq, run, wait, whole]

/-- The edges of the last step: its wait, and the edge that returns to `IDLE`. -/
theorem progress_iterate_last {T : Nat} {s : State} (h : Begun T s) (last : s.stepsLeft = 0#32) :
    progress^[T + 1] s = { s with fsm := .idle, waitCnt := 0 } := by
  obtain ⟨run, wait, whole⟩ := h
  rw [Function.iterate_succ_apply', progress_iterate_of_waiting T wait.ge,
    progress_of_last (s := { s with waitCnt := s.waitCnt - T }) (Nat.sub_eq_zero_of_le wait.le) last]
  simp [wait]

/-- `j` whole steps take `j * (T + 1)` edges. -/
theorem progress_iterate_steps {T : Nat} {s : State} (h : Begun T s) (j : Nat) (hj : j ≤ s.stepsLeft.toNat) :
    progress^[j * (T + 1)] s = s.afterSteps j := by
  induction j with
  | zero => rw [Nat.zero_mul, afterSteps_zero]; rfl
  | succ j ih =>
    have more : (s.afterSteps j).stepsLeft ≠ 0#32 := fun zero => by
      have left := afterSteps_stepsLeft (Nat.le_of_succ_le hj)
      rw [zero, BitVec.toNat_ofNat] at left
      omega
    rw [Nat.succ_mul, Nat.add_comm, Function.iterate_add_apply, ih (Nat.le_of_succ_le hj),
      progress_iterate_step (h.afterSteps j) more, afterSteps_succ]

/-- Before the end of its last step, a movement is `k / (T + 1)` steps and `k % (T + 1)` edges on. -/
theorem progress_iterate_within {T : Nat} {s : State} (h : Begun T s) {k : Nat}
    (hk : k < (s.stepsLeft.toNat + 1) * (T + 1)) :
    progress^[k] s = { s.afterSteps (k / (T + 1)) with waitCnt := T - k % (T + 1) } := by
  have steps : k / (T + 1) ≤ s.stepsLeft.toNat := Nat.le_of_lt_succ ((Nat.div_lt_iff_lt_mul T.succ_pos).mpr hk)
  have begun := h.afterSteps (k / (T + 1))
  have wait : k % (T + 1) ≤ (s.afterSteps (k / (T + 1))).waitCnt :=
    (Nat.le_of_lt_succ (Nat.mod_lt k T.succ_pos)).trans begun.wait.ge
  calc progress^[k] s
      = progress^[k % (T + 1) + k / (T + 1) * (T + 1)] s := by rw [Nat.mod_add_div']
    _ = { s.afterSteps (k / (T + 1)) with waitCnt := T - k % (T + 1) } := by
      rw [Function.iterate_add_apply, progress_iterate_steps h _ steps, progress_iterate_of_waiting _ wait, begun.wait]

/-- The edge after the last wait returns to `IDLE` with all steps done. -/
theorem progress_iterate_end {T : Nat} {s : State} (h : Begun T s) :
    progress^[(s.stepsLeft.toNat + 1) * (T + 1)] s =
      { s.afterSteps s.stepsLeft.toNat with fsm := .idle, waitCnt := 0 } := by
  have last : (s.afterSteps s.stepsLeft.toNat).stepsLeft = 0#32 :=
    BitVec.eq_of_toNat_eq ((afterSteps_stepsLeft le_rfl).trans (Nat.sub_self _))
  rw [Nat.succ_mul, Nat.add_comm, Function.iterate_add_apply, progress_iterate_steps h _ le_rfl,
    progress_iterate_last (h.afterSteps _) last]

/-- A movement is busy until the edge after its last wait. -/
theorem busy_of_begun {T : Nat} {s : State} (h : Begun T s) {k : Nat}
    (hk : k < (s.stepsLeft.toNat + 1) * (T + 1)) : (progress^[k] s).fsm = .run := by
  rw [progress_iterate_within h hk]
  exact h.run

/-! ## From any point of a step -/

/-- The same step at its beginning: the whole wait ahead. -/
def State.rewound (s : State) : State := { s with waitCnt := waitCycles s.delayUnit s.params }

theorem begun_rewound {s : State} (run : s.fsm = .run) : Begun (waitCycles s.delayUnit s.params) s.rewound :=
  ⟨run, rfl, rfl⟩

/-- A state within its wait lies as many edges after the beginning of its step as are gone of the wait. -/
theorem progress_iterate_rewound {s : State} (bound : s.waitCnt ≤ waitCycles s.delayUnit s.params) :
    progress^[waitCycles s.delayUnit s.params - s.waitCnt] s.rewound = s := by
  rw [progress_iterate_of_waiting (s := s.rewound) (waitCycles s.delayUnit s.params - s.waitCnt) (Nat.sub_le _ _)]
  simp [State.rewound, Nat.sub_sub_self bound]

/-- The edges gone of the step in progress and the edges to come are those of whole steps. -/
theorem gone_add_to_come {T wait : Nat} (left : Nat) (bound : wait ≤ T) :
    wait + 1 + left * (T + 1) + (T - wait) = (left + 1) * (T + 1) := by
  rw [Nat.succ_mul]
  omega

/-- From any point of a step the block is busy until the edge after the last wait. -/
theorem busy_of_run_of_lt {s : State} (run : s.fsm = .run) (bound : s.waitCnt ≤ waitCycles s.delayUnit s.params)
    {k : Nat} (hk : k < s.waitCnt + 1 + s.stepsLeft.toNat * (waitCycles s.delayUnit s.params + 1)) :
    (progress^[k] s).fsm = .run := by
  have whole := gone_add_to_come s.stepsLeft.toNat bound
  have later : k + (waitCycles s.delayUnit s.params - s.waitCnt) <
      (s.stepsLeft.toNat + 1) * (waitCycles s.delayUnit s.params + 1) := by omega
  have busy := busy_of_begun (begun_rewound run) later
  rwa [Function.iterate_add_apply, progress_iterate_rewound bound] at busy

/-- From any point of a step the edge after the last wait returns to `IDLE`, all steps done. -/
theorem progress_iterate_of_run {s : State} (run : s.fsm = .run)
    (bound : s.waitCnt ≤ waitCycles s.delayUnit s.params) :
    progress^[s.waitCnt + 1 + s.stepsLeft.toNat * (waitCycles s.delayUnit s.params + 1)] s =
      { s.afterSteps s.stepsLeft.toNat with fsm := .idle, waitCnt := 0 } := by
  have done : progress^[(s.stepsLeft.toNat + 1) * (waitCycles s.delayUnit s.params + 1)] s.rewound =
      { s.afterSteps s.stepsLeft.toNat with fsm := .idle, waitCnt := 0 } := progress_iterate_end (begun_rewound run)
  rwa [← gone_add_to_come s.stepsLeft.toNat bound, Function.iterate_add_apply, progress_iterate_rewound bound] at done

end Sys2Proof.Machine

/-! Time: how long commands keep the block busy, and on which edges their steps begin (45_cycle_fsm.md section 2,
70_reset_and_hazards.md section 4). -/

namespace Sys2Proof.Machine

/-! ## Waits and coil changes (R135, R138, R189) -/

/-- Settles O47: a step just begun has its whole wait ahead. -/
theorem aStepHoldsItsPatternForItsWait : Obligations.AStepHoldsItsPatternForItsWait := fun d s k hn hk =>
  runEdges_of_waiting (s := beginStep d s) k hn rfl hk

/-- Settles O50: only the beginning of a step changes the coils without reset, and then the whole wait is ahead. -/
theorem coilChangesAreAStepApart : Obligations.CoilChangesAreAStepApart := by
  intro s t u k hn first changed hk run
  rcases keepsPins_or_beginsStep (port_rst_of_noReset hn) first with ⟨-, coils, -⟩ | ⟨d, -, -, busy, wait, -⟩
  · exact absurd coils changed
  · cases (runEdges_of_waiting k (noReset_of_step hn first) busy (hk.trans wait.ge)).symm.trans run
    rfl

/-- An edge in `RUN` leaves `RUN`, begins one of the steps left, or shortens the wait (R138). -/
theorem progress_decreases {s : State} :
    (progress s).fsm = .idle ∨ (progress s).stepsLeft.toNat < s.stepsLeft.toNat ∨
      ((progress s).stepsLeft = s.stepsLeft ∧ (progress s).waitCnt < s.waitCnt) := by
  rcases progress_cases s with ⟨waiting, e⟩ | ⟨-, more, e⟩ | ⟨-, -, e⟩ <;> rw [e]
  · exact .inr (.inr ⟨rfl, Nat.sub_one_lt waiting⟩)
  · obtain ⟨pred, positive⟩ := pred_toNat s.stepsLeft more
    exact .inr (.inl (pred.trans_lt (Nat.sub_one_lt positive)))
  · exact .inl rfl

/-- Settles O49: the closed form from any point of a step, and the three cases of `run()`. -/
theorem everyBusyStateReturnsToIdle : Obligations.EveryBusyStateReturnsToIdle := by
  intro s ⟨_, _, bound, _, _⟩ hn run
  refine ⟨⟨_, _, rfl, ?_, runEdges_of_busy hn fun k => busy_of_run_of_lt run bound, ?_⟩, ?_⟩
  · rw [← gone_add_to_come s.stepsLeft.toNat bound]
    exact Nat.le_add_right _ _
  · rw [progress_iterate_of_run run bound]
    rfl
  · exact ⟨_, step_of_run (port_rst_of_noReset hn) run, progress_decreases (s := s.advance)⟩

/-! ## From the accepting edge on (R185, R186, R188) -/

/-- The state after the edge that accepts a command of at least one step (R133). -/
def State.firstStep (i : Instr) (s : State) : State :=
  startMove (dirOf i) (BitVec.ofNat 32 (stepsOf i - 1)) s.advance

theorem begun_firstStep (i : Instr) (s : State) : Begun (waitCycles s.delayUnit s.params) (s.firstStep i) :=
  ⟨rfl, rfl, rfl⟩

/-- The first step is one step of the operation level, and `j` steps later there are `j` more. -/
theorem firstStep_afterSteps_op (j : Nat) (i : Instr) (s : State) :
    ((s.firstStep i).afterSteps j).op = repeatStep (j + 1) (dirOf i) s.op :=
  (afterSteps_op j (s.firstStep i)).trans (congrArg (repeatStep j (dirOf i)) (beginStep_op (dirOf i) _))

/-- An accepted command is a decoded one, so its operand is in range. -/
theorem wellFormed_of_acceptedAt {s : State} {i : Instr} (ha : acceptedAt s = some i) : i.WellFormed := by
  obtain ⟨-, -, -, rfl⟩ := acceptedAt_eq_some ha
  exact decode_wellFormed _

/-- The edge that accepts a command of no step leaves the block idle with the command done. -/
theorem step_of_accepted_no_step {s : State} {i : Instr} (ha : acceptedAt s = some i) (none : stepsOf i = 0) :
    ∃ t, step s = .next t ∧ t.fsm = .idle ∧ t.op = opExec i s.op ∧ t.trace = s.trace := by
  obtain ⟨-, -, idle, -⟩ := acceptedAt_eq_some ha
  rw [step_of_acceptedAt ha]
  rcases exec_cases i s.advance with ⟨_, -, pos, -⟩ | ⟨rfl, e⟩ | ⟨d, rfl, e⟩
  · exact absurd none pos.ne'
  · exact ⟨_, e, idle, rfl, rfl⟩
  · exact ⟨_, e, idle, rfl, rfl⟩

section

variable {s : State} {i : Instr} (hn : s.noReset) (ha : acceptedAt s = some i)

include ha

/-- The edge that accepts a command of at least one step begins the first. -/
theorem step_of_accepted_move (pos : 0 < stepsOf i) : step s = .next (s.firstStep i) := by
  rw [step_of_acceptedAt ha]
  rcases exec_cases i s.advance with ⟨_, e, -, rfl⟩ | ⟨rfl, -⟩ | ⟨d, rfl, -⟩
  · exact e
  · exact absurd pos (Nat.lt_irrefl 0)
  · exact absurd pos (Nat.lt_irrefl 0)

/-- After the first step the command has all its other steps to begin. -/
theorem firstStep_stepsLeft (pos : 0 < stepsOf i) : (s.firstStep i).stepsLeft.toNat + 1 = stepsOf i := by
  have few := stepsOf_le (wellFormed_of_acceptedAt ha)
  rw [State.firstStep, startMove_stepsLeft, ofNat_pred_toNat few]
  omega

/-- After its accepting edge a command keeps the block in `RUN` until the edge after its last wait. -/
theorem firstStep_busy {k : Nat} (hk : k < stepsOf i * (waitCycles s.delayUnit s.params + 1)) :
    (progress^[k] (s.firstStep i)).fsm = .run := by
  have pos : 0 < stepsOf i := Nat.pos_of_mul_pos_right (Nat.zero_lt_of_lt hk)
  rw [← firstStep_stepsLeft ha pos] at hk
  exact busy_of_begun (begun_firstStep i s) hk

include hn

/-- The whole state `k + 1` edges after a command was presented, until the edge after its last wait. -/
theorem runEdges_of_accepted {k : Nat} (hk : k < stepsOf i * (waitCycles s.delayUnit s.params + 1)) :
    runEdges (k + 1) s = .next
      { (s.firstStep i).afterSteps (k / (waitCycles s.delayUnit s.params + 1)) with
        waitCnt := waitCycles s.delayUnit s.params - k % (waitCycles s.delayUnit s.params + 1)
        inputs  := s.inputs.tail.drop k } := by
  have pos : 0 < stepsOf i := Nat.pos_of_mul_pos_right (Nat.zero_lt_of_lt hk)
  have first := step_of_accepted_move ha pos
  rw [runEdges_succ k first,
    runEdges_of_busy (noReset_of_step hn first) fun j hj => firstStep_busy ha (hj.trans hk)]
  rw [← firstStep_stepsLeft ha pos] at hk
  rw [progress_iterate_within (begun_firstStep i s) hk]
  rfl

/-- The whole state after the edge that follows the last wait of a command. -/
theorem runEdges_of_completed (pos : 0 < stepsOf i) :
    runEdges (stepsOf i * (waitCycles s.delayUnit s.params + 1) + 1) s = .next
      { (s.firstStep i).afterSteps (stepsOf i - 1) with
        fsm     := .idle
        waitCnt := 0
        inputs  := s.inputs.tail.drop (stepsOf i * (waitCycles s.delayUnit s.params + 1)) } := by
  have first := step_of_accepted_move ha pos
  have left := firstStep_stepsLeft ha pos
  have done := progress_iterate_end (begun_firstStep i s)
  rw [left, Nat.eq_sub_of_add_eq left] at done
  rw [runEdges_succ _ first, runEdges_of_busy (noReset_of_step hn first) fun j hj => firstStep_busy ha hj, done]
  rfl

/-- From its acceptance until the block is ready again nothing else is accepted. -/
theorem acceptedRun_of_accepted {k : Nat} (hk : k ≤ stepsOf i * (waitCycles s.delayUnit s.params + 1)) :
    acceptedRun (k + 1) s = [i] := by
  obtain ⟨u, first⟩ := step_total s
  have others : acceptedRun k u = [] := by
    cases k with
    | zero => rfl
    | succ k =>
      have pos : 0 < stepsOf i := Nat.pos_of_mul_pos_right (Nat.zero_lt_of_lt hk)
      cases (step_of_accepted_move ha pos).symm.trans first
      exact acceptedRun_of_busy (noReset_of_step hn first) fun j hj => firstStep_busy ha (hj.trans_le hk)
  rw [acceptedRun_succ k first, ha, others]
  rfl

end

/-- Settles O55: a command of at least one step has done all its steps after its last wait; one of no step is done on
the accepting edge. -/
theorem everyCommandReachesItsResult : Obligations.EveryCommandReachesItsResult := by
  intro s i hn ha
  rcases Nat.eq_zero_or_pos (stepsOf i) with none | pos
  · obtain ⟨t, first, idle, result, -⟩ := step_of_accepted_no_step ha none
    rw [none, Nat.zero_mul]
    exact ⟨t, runEdges_succ 0 first, idle, result⟩
  · refine ⟨_, runEdges_of_completed hn ha pos, rfl, (firstStep_afterSteps_op (stepsOf i - 1) i s).trans ?_⟩
    rw [Nat.sub_add_cancel pos, opExec_eq_repeatStep i s.op pos]

/-- Settles O48: the closed form while busy, and the command's completion. -/
theorem busyTimeOfEveryCommand : Obligations.BusyTimeOfEveryCommand := by
  refine fun s i hn ha => ⟨fun k hk => ?_, ?_⟩
  · exact ⟨_, runEdges_of_accepted hn ha hk, busy_of_run rfl, firstStep_afterSteps_op _ i s⟩
  · obtain ⟨t, run, idle, -⟩ := everyCommandReachesItsResult s i hn ha
    exact ⟨t, run, cmdReady_of_idle idle⟩

/-- Settles O53: before, either nothing is accepted yet or the block is still in `RUN`. -/
theorem runOfOneCommandEndsAfterItsLastWait : Obligations.RunOfOneCommandEndsAfterItsLastWait := by
  intro s i hn ha
  obtain ⟨t, run, idle, -⟩ := everyCommandReachesItsResult s i hn ha
  refine ⟨⟨acceptedRun_of_accepted hn ha le_rfl, t, run, idle⟩, ?earlier⟩
  case earlier =>
    rintro (_ | k) hk ⟨accepted, u, early, quiescent⟩
    · exact absurd accepted nofun
    · cases (runEdges_of_accepted hn ha (Nat.lt_of_succ_lt_succ hk)).symm.trans early
      exact absurd quiescent nofun

/-! ## Step commands back to back (R187) -/

section

variable {s : State} {w : CmdWord} (idle : s.fsm = .idle)

include idle

/-- A word presented to an idle block on every edge is accepted on the first, and there is no reset. -/
theorem accepted_of_replicate {n : Nat} (inputs : s.inputs = List.replicate (n + 1) (PortIn.present w)) :
    s.noReset ∧ acceptedAt s = some (decode w) := by
  have port : s.port = .present w := by rw [State.port, inputs]; rfl
  refine ⟨fun p hp => ?_, ?_⟩
  · rw [inputs] at hp
    rw [List.eq_of_mem_replicate hp, present_rst]
  · rw [acceptedAt_of_presented (by rw [port]; rfl) (by rw [port]; rfl) idle, port, word_present]

variable (single : decode w = .stepFwd ∨ decode w = .stepBwd)

include single

/-- Of at most `T + 2` edges with a step command presented, the first alone accepts it. -/
theorem acceptedRun_of_replicate {n : Nat} (inputs : s.inputs = List.replicate (n + 1) (PortIn.present w)) {k : Nat}
    (hk : k ≤ waitCycles s.delayUnit s.params + 1) : acceptedRun (k + 1) s = [decode w] := by
  obtain ⟨hn, ha⟩ := accepted_of_replicate idle inputs
  refine acceptedRun_of_accepted hn ha ?_
  rcases single with h | h <;> rw [h] <;> exact hk.trans (Nat.one_mul _).ge

/-- After `T + 2` edges with a step command presented the block is idle again, under the same delay. -/
theorem idle_of_replicate {rest : Nat}
    (inputs : s.inputs = List.replicate (waitCycles s.delayUnit s.params + 1 + 1 + rest) (PortIn.present w)) :
    ∃ t, runEdges (waitCycles s.delayUnit s.params + 1 + 1) s = .next t ∧ t.fsm = .idle ∧
      t.delayUnit = s.delayUnit ∧ t.params = s.params ∧ t.inputs = List.replicate rest (PortIn.present w) := by
  obtain ⟨hn, ha⟩ := accepted_of_replicate (n := waitCycles s.delayUnit s.params + 1 + rest) idle
    (by rw [inputs, Nat.add_right_comm])
  obtain ⟨t, run, idle', result⟩ := everyCommandReachesItsResult s (decode w) hn ha
  have one : stepsOf (decode w) = 1 := by rcases single with h | h <;> rw [h] <;> rfl
  have other : ∀ d, decode w ≠ .setSpeed d := by rcases single with h | h <;> rw [h] <;> exact fun _ => nofun
  obtain ⟨delay, -⟩ := opExec_appends_waits other s.op
  rw [one, Nat.one_mul] at run
  obtain ⟨params, inputs'⟩ := runEdges_frame _ run
  refine ⟨t, run, idle', (congrArg OpState.delayUnit result).trans delay, params, ?_⟩
  rw [inputs', inputs, List.drop_replicate, Nat.add_sub_cancel_left]

end

/-- Among `n` edges, at least one and at most `T + 2`, there is one acceptance. -/
theorem acceptances_eq_one {m T : Nat} (few : m < T + 2) : (m + 1 + T + 1) / (T + 2) = 1 := by
  rw [show m + 1 + T + 1 = m + (T + 2) by omega, Nat.add_div_right _ (Nat.succ_pos _), Nat.div_eq_of_lt few]

/-- Among `T + 2` edges more there is one acceptance more. -/
theorem acceptances_add (rest T : Nat) : (T + 1 + 1 + rest + T + 1) / (T + 2) = (rest + T + 1) / (T + 2) + 1 := by
  rw [show T + 1 + 1 + rest + T + 1 = rest + T + 1 + (T + 2) by omega, Nat.add_div_right _ (Nat.succ_pos _)]

/-- Settles O51: at most `T + 2` edges hold one acceptance, on the first; after `T + 2` edges it begins again. -/
theorem backToBackStepsAreSpaced : Obligations.BackToBackStepsAreSpaced := by
  intro s w n idle single inputs
  induction n using Nat.strong_induction_on generalizing s with
  | _ n ih =>
    rcases Nat.lt_or_ge n (waitCycles s.delayUnit s.params + 1 + 1) with few | many
    · cases n with
      | zero => rw [Nat.zero_add, Nat.div_eq_of_lt (Nat.lt_succ_self _)]; rfl
      | succ m =>
        rw [acceptedRun_of_replicate idle single inputs (by omega), acceptances_eq_one (Nat.lt_of_succ_lt few)]
        rfl
    · obtain ⟨rest, rfl⟩ := Nat.exists_eq_add_of_le many
      obtain ⟨t, run, idle', delay, params, inputs'⟩ := idle_of_replicate idle single inputs
      have first := acceptedRun_of_replicate (n := waitCycles s.delayUnit s.params + 1 + rest) idle single
        (by rw [inputs, Nat.add_right_comm]) le_rfl
      have later := ih rest (by omega) t idle' inputs'
      rw [delay, params] at later
      rw [acceptedRun_add _ rest run, first, later, acceptances_add, List.replicate_succ]
      rfl

/-! ## Time stamps (R140) -/

/-- The time stamps of the first of several edges, which appends the given events, and of the others. -/
theorem timeline_succ {e n : Nat} {s u : State} {events : List Event} (first : step s = .next u)
    (trace : u.trace = s.trace ++ events) :
    timeline e (n + 1) s = (events.map fun event => (e, event)) ++ timeline (e + 1) n u := by
  simp [timeline, first, trace]

/-- The time stamps of a single edge. -/
theorem timeline_one {e : Nat} {s u : State} {events : List Event} (first : step s = .next u)
    (trace : u.trace = s.trace ++ events) : timeline e 1 s = events.map fun event => (e, event) :=
  (timeline_succ first trace).trans (List.append_nil _)

/-- The edges of a wait stamp nothing. -/
theorem timeline_of_waiting {e k : Nat} {s : State} (hn : s.noReset) (run : s.fsm = .run) (hk : k ≤ s.waitCnt) :
    timeline e k s = [] := by
  induction k with
  | zero => rfl
  | succ k ih =>
    have before := runEdges_of_waiting k hn run (Nat.le_of_succ_le hk)
    have last := step_of_waiting (port_rst_of_noReset (noReset_of_runEdges hn before)) run (Nat.sub_ne_zero_of_lt hk)
    rw [timeline_add k 1 e before, ih (Nat.le_of_succ_le hk), timeline_one last (List.append_nil _).symm]
    rfl

/-- The `T + 1` edges after the beginning of a step stamp nothing until the last of them. -/
theorem timeline_of_begun {T e : Nat} {s : State} {events : List Event} (h : Begun T s) (hn : s.noReset)
    (trace : (progress^[T + 1] s).trace = s.trace ++ events) :
    timeline e (T + 1) s = events.map fun event => (e + T, event) := by
  have waited := runEdges_of_waiting T hn h.run h.wait.ge
  have whole := runEdges_of_busy (n := T + 1) hn fun k hk => by
    rw [progress_iterate_of_waiting k ((Nat.le_of_lt_succ hk).trans h.wait.ge)]
    exact h.run
  rw [runEdges_add T 1 waited] at whole
  obtain ⟨u, last, ⟨⟩⟩ := runEdges_first whole
  rw [timeline_add T 1 e waited, timeline_of_waiting hn h.run h.wait.ge, timeline_one last trace]
  rfl

/-- A step left to begin stamps its events on the last of these edges. -/
theorem timeline_of_step {T e : Nat} {s : State} (h : Begun T s) (hn : s.noReset) (more : s.stepsLeft ≠ 0#32) :
    timeline e (T + 1) s = (stepEvents (turn s.dir s.phaseIndex) s.delayUnit).map fun event => (e + T, event) :=
  timeline_of_begun h hn (by rw [progress_iterate_step h more]; exact congrArg OpState.trace (microStep_eq s.dir s.op))

/-- After the beginning of the last step nothing is stamped. -/
theorem timeline_of_last {T e : Nat} {s : State} (h : Begun T s) (hn : s.noReset) (last : s.stepsLeft = 0#32) :
    timeline e (T + 1) s = [] :=
  timeline_of_begun (events := []) h hn (by rw [progress_iterate_last h last, List.append_nil])

/-- The stamped events of the `j`-th step, from 0, of the command `i` that `s` accepts on edge `e`. -/
def stampsOfStep (e : Nat) (i : Instr) (s : State) (j : Nat) : List (Nat × Event) :=
  (stepEvents (repeatStep (j + 1) (dirOf i) s.op).phaseIndex s.delayUnit).map
    fun event => (e + j * (waitCycles s.delayUnit s.params + 1), event)

/-- The index a step turns to is the one the operation level has after one step more. -/
theorem repeatStep_succ_phaseIndex (n : Nat) (d : Dir) (o : OpState) :
    (repeatStep (n + 1) d o).phaseIndex = turn d (repeatStep n d o).phaseIndex := by
  rw [repeatStep_add]
  exact congrArg OpState.phaseIndex (microStep_eq d _)

section

variable {s : State} {i : Instr} (hn : s.noReset) (ha : acceptedAt s = some i)

include hn ha

/-- The state on the edge that begins the `j`-th step, from 0, of an accepted command. -/
theorem runEdges_to_step {j : Nat} (hj : j < stepsOf i) :
    ∃ t, runEdges (j * (waitCycles s.delayUnit s.params + 1) + 1) s = .next t ∧ t.noReset ∧
      Begun (waitCycles s.delayUnit s.params) t ∧ t.dir = dirOf i ∧ t.delayUnit = s.delayUnit ∧
      t.phaseIndex = (repeatStep (j + 1) (dirOf i) s.op).phaseIndex ∧ t.stepsLeft.toNat = stepsOf i - (j + 1) := by
  have hk := Nat.mul_lt_mul_of_pos_right hj (Nat.succ_pos (waitCycles s.delayUnit s.params))
  have run := runEdges_of_accepted hn ha hk
  have left := firstStep_stepsLeft ha (Nat.zero_lt_of_lt hj)
  rw [Nat.mul_div_left _ (Nat.succ_pos _), Nat.mul_mod_left, Nat.sub_zero] at run
  refine ⟨_, run, noReset_of_runEdges hn run, ⟨rfl, rfl, rfl⟩, rfl, rfl, ?_, ?_⟩
  · rw [← firstStep_afterSteps_op j i s]; rfl
  · exact (afterSteps_stepsLeft (s := s.firstStep i) (by omega)).trans (by omega)

/-- Up to the edge that begins its `j`-th step, from 0, a command stamps the steps begun. -/
theorem timeline_to_step (e : Nat) {j : Nat} (hj : j < stepsOf i) :
    timeline e (j * (waitCycles s.delayUnit s.params + 1) + 1) s =
      (List.range (j + 1)).flatMap (stampsOfStep e i s) := by
  induction j with
  | zero =>
    rw [Nat.zero_mul, Nat.zero_add, timeline_one (step_of_accepted_move ha hj) (startMove_trace _ _ _),
      List.range_one, List.flatMap_singleton, stampsOfStep, repeatStep_succ_phaseIndex, Nat.zero_mul]
    rfl
  | succ j ih =>
    obtain ⟨t, run, hn', begun, dir, delay, index, left⟩ := runEdges_to_step hn ha (Nat.lt_of_succ_lt hj)
    have more : t.stepsLeft ≠ 0#32 := fun zero => by rw [zero, BitVec.toNat_ofNat] at left; omega
    have edge : e + (j * (waitCycles s.delayUnit s.params + 1) + 1) + waitCycles s.delayUnit s.params =
        e + (j + 1) * (waitCycles s.delayUnit s.params + 1) := by rw [Nat.succ_mul]; omega
    have next : timeline (e + (j * (waitCycles s.delayUnit s.params + 1) + 1)) (waitCycles s.delayUnit s.params + 1) t =
        stampsOfStep e i s (j + 1) := by
      rw [timeline_of_step begun hn' more, edge, dir, delay, index, ← repeatStep_succ_phaseIndex, stampsOfStep]
    rw [Nat.succ_mul, Nat.add_right_comm, timeline_add _ _ e run, ih (Nat.lt_of_succ_lt hj), next,
      List.range_succ (n := j + 1), List.flatMap_append, List.flatMap_singleton]

end

/-- Settles O52: each step stamps its events on the edge that begins it, and the last wait stamps nothing. -/
theorem eventsStandOnTheEdgesOfTheirSteps : Obligations.EventsStandOnTheEdgesOfTheirSteps := by
  intro s i e hn ha
  change _ = (List.range (stepsOf i)).flatMap (stampsOfStep e i s)
  cases steps : stepsOf i with
  | zero =>
    obtain ⟨t, first, -, -, trace⟩ := step_of_accepted_no_step ha steps
    rw [Nat.zero_mul, Nat.zero_add, timeline_one first (trace.trans (List.append_nil _).symm)]
    rfl
  | succ m =>
    have last : m < stepsOf i := steps ▸ Nat.lt_succ_self m
    obtain ⟨t, run, hn', begun, -, -, -, left⟩ := runEdges_to_step hn ha last
    have none : t.stepsLeft = 0#32 := BitVec.eq_of_toNat_eq (by rw [left, steps, Nat.sub_self]; rfl)
    rw [Nat.succ_mul, Nat.add_right_comm, timeline_add _ _ e run, timeline_to_step hn ha e last,
      timeline_of_last begun hn' none, List.append_nil]

end Sys2Proof.Machine

/-! The cycle level refines the operation level (45_cycle_fsm.md R141). -/

namespace Sys2Proof.Machine

/-! ## Idle runs (R161, R184) -/

/-- Settles O54: each edge of an idle block with nothing presented moves the inputs on and does nothing else. -/
theorem idleBlockKeepsItsPattern : Obligations.IdleBlockKeepsItsPattern := by
  intro s n idle quiet
  induction n generalizing s with
  | zero => rfl
  | succ n ih =>
    have port : s.port.rst = false ∧ s.port.cmdValid = false := by
      cases inputs : s.inputs with
      | nil => rw [State.port, inputs]; exact ⟨rfl, rfl⟩
      | cons p ins => rw [State.port, inputs]; exact quiet p (inputs ▸ List.mem_cons_self)
    have later := ih s.advance idle fun p hp => quiet p (List.mem_of_mem_tail hp)
    rw [runEdges_succ n (step_of_quiet port.1 idle port.2), later]
    simp [State.advance]

/-! ## The refinement (R141) -/

/-- One command more. -/
theorem runCommands_concat (cmds : List Instr) (i : Instr) (o : OpState) :
    runCommands (cmds ++ [i]) o = opExec i (runCommands cmds o) := by
  induction cmds generalizing o with
  | nil => rfl
  | cons j cmds ih => exact ih (opExec j o)

/-- The state `t` refines the operation level from `o` on with the commands `accepted` so far: idle, it is the state
after them; in `RUN`, it is the state after the earlier ones and the steps begun of the last, which goes on in its own
direction. -/
def Refines (o : OpState) (accepted : List Instr) (t : State) : Prop :=
  (t.fsm = .idle → t.op = runCommands accepted o) ∧
  (t.fsm = .run → ∃ done i, accepted = done ++ [i] ∧ t.dir = dirOf i ∧ t.stepsLeft.toNat < stepsOf i ∧
    t.op = repeatStep (stepsOf i - t.stepsLeft.toNat) (dirOf i) (runCommands done o))

theorem refines_of_idle {o : OpState} {accepted : List Instr} {t : State} (idle : t.fsm = .idle)
    (result : t.op = runCommands accepted o) : Refines o accepted t :=
  ⟨fun _ => result, fun run => nomatch idle.symm.trans run⟩

/-- `run()` keeps the refinement: a wait changes nothing the operation level sees, the next step is one step more, and
the block is idle again once no step is left. -/
theorem refines_progress {o : OpState} {accepted : List Instr} {t : State} (run : t.fsm = .run)
    (h : Refines o accepted t) : Refines o accepted (progress t) := by
  obtain ⟨done, i, split, dir, left, view⟩ := h.2 run
  rcases progress_cases t with ⟨-, e⟩ | ⟨-, more, e⟩ | ⟨-, zero, e⟩ <;> rw [e]
  · exact h
  · obtain ⟨pred, positive⟩ := pred_toNat t.stepsLeft more
    refine ⟨nofun, fun _ => ⟨done, i, split, dir, by rw [beginStep_stepsLeft, pred]; omega, ?_⟩⟩
    have one_more : stepsOf i - (t.stepsLeft - 1#32).toNat = stepsOf i - t.stepsLeft.toNat + 1 := by omega
    rw [beginStep_op, beginStep_stepsLeft, one_more, repeatStep_add, ← view, ← dir]
    rfl
  · refine refines_of_idle rfl ?_
    rw [zero, BitVec.toNat_ofNat] at left view
    rw [split, runCommands_concat, opExec_eq_repeatStep i _ left]
    exact view

/-- The accepting edge keeps the refinement: the accepted command has begun its first step, or it has none and is
done. -/
theorem refines_accepted {o : OpState} {accepted : List Instr} {t u : State} {i : Instr}
    (ha : acceptedAt t = some i) (e : step t = .next u) (h : Refines o accepted t) :
    Refines o (accepted ++ [i]) u := by
  obtain ⟨-, -, idle, -⟩ := acceptedAt_eq_some ha
  have before := h.1 idle
  rcases Nat.eq_zero_or_pos (stepsOf i) with none | pos
  · obtain ⟨v, e', idle', result, -⟩ := step_of_accepted_no_step ha none
    cases e'.symm.trans e
    refine refines_of_idle idle' ?_
    rw [result, before, runCommands_concat]
  · cases (step_of_accepted_move ha pos).symm.trans e
    have left := firstStep_stepsLeft ha pos
    have first : stepsOf i - (t.firstStep i).stepsLeft.toNat = 1 := by omega
    refine ⟨nofun, fun _ => ⟨accepted, i, rfl, rfl, by omega, ?_⟩⟩
    rw [first, ← before, ← firstStep_afterSteps_op 0 i t, afterSteps_zero]

/-- Every edge without reset keeps the refinement. -/
theorem refines_step {o : OpState} {accepted : List Instr} {t u : State} (hr : t.port.rst = false)
    (e : step t = .next u) (h : Refines o accepted t) : Refines o (accepted ++ (acceptedAt t).toList) u := by
  rcases step_cases e with ⟨reset, -⟩ | ⟨-, run, rfl⟩ | ⟨-, idle, quiet, rfl⟩ | ⟨-, idle, valid, -⟩
  · exact absurd (hr.symm.trans reset) nofun
  · rw [acceptedAt_of_run run, Option.toList_none, List.append_nil]
    exact refines_progress (t := t.advance) run h
  · rw [acceptedAt_of_quiet quiet, Option.toList_none, List.append_nil]
    exact h
  · have ha := acceptedAt_of_presented hr valid idle
    rw [ha]
    exact refines_accepted ha e h

/-- Every run without reset from an idle state refines the operation level. -/
theorem refines_runEdges {s : State} (idle : s.fsm = .idle) (hn : s.noReset) (n : Nat) :
    ∃ t, runEdges n s = .next t ∧ Refines s.op (acceptedRun n s) t := by
  induction n with
  | zero => exact ⟨s, rfl, refines_of_idle idle rfl⟩
  | succ n ih =>
    obtain ⟨t, run, h⟩ := ih
    obtain ⟨u, last⟩ := step_total t
    refine ⟨u, runEdges_succ_last run last, ?_⟩
    rw [acceptedRun_add n 1 run, acceptedRun_one]
    exact refines_step (port_rst_of_noReset (noReset_of_runEdges hn run)) last h

/-- Settles O56: the refinement holds after every number of edges; it also fixes the direction of the current
command. -/
theorem cycleLevelRefinesOperationLevel : Obligations.CycleLevelRefinesOperationLevel := by
  intro s n idle hn
  obtain ⟨t, run, whenIdle, whenBusy⟩ := refines_runEdges idle hn n
  refine ⟨t, run, whenIdle, fun busy => ?_⟩
  obtain ⟨done, i, split, -, left, view⟩ := whenBusy busy
  exact ⟨done, i, split, left, view⟩

end Sys2Proof.Machine

/-! The host (30_encoding.md R76, R80; 70_reset_and_hazards.md R182). -/

namespace Sys2Proof.Machine

/-- The first edge of block and host together, the host driving the levels `p`. -/
theorem drive_succ (n : Nat) {acts acts' : List HostAct} {p : PortIn} {s t : State}
    (host : hostEdge s.cmdReady acts = (p, acts')) (first : step (s.withInputs [p]) = .next t) :
    drive (n + 1) acts s = drive n acts' t := by
  rw [State.withInputs] at first
  simp only [drive, host, first]

/-- A block in `RUN` is not ready. -/
theorem cmdReady_of_run {s : State} (run : s.fsm = .run) : s.cmdReady = false := by
  simp [State.cmdReady, run]

/-! ## Holding a command (R182) -/

/-- `run()` again and again neither reads nor writes the inputs. -/
theorem progress_iterate_withInputs (k : Nat) (ins : List PortIn) (s : State) :
    progress^[k] (s.withInputs ins) = (progress^[k] s).withInputs ins := by
  induction k with
  | zero => rfl
  | succ k ih => rw [Function.iterate_succ_apply', Function.iterate_succ_apply', ih, progress_withInputs]

/-- On an edge that finds the block in `RUN` the host goes on holding its command. -/
theorem drive_of_run (i : Instr) (acts : List HostAct) (n : Nat) {s : State} (run : s.fsm = .run) :
    drive (n + 1) (.command i :: acts) s = drive n (.command i :: acts) ((progress s).withInputs []) := by
  have held : hostEdge s.cmdReady (.command i :: acts) = (.present (encode i), .command i :: acts) := by
    rw [cmdReady_of_run run]; rfl
  exact drive_succ n held ((step_of_run (s := s.withInputs [.present (encode i)]) rfl run).trans
    (congrArg _ (progress_withInputs [] s)))

/-- As long as the block stays in `RUN` the host holds its command, and the block makes `run()` again and again. -/
theorem drive_of_busy (i : Instr) (acts : List HostAct) (n m : Nat) {s : State}
    (busy : ∀ k < n + 1, (progress^[k] s).fsm = .run) :
    drive (m + (n + 1)) (.command i :: acts) s =
      drive m (.command i :: acts) ((progress^[n + 1] s).withInputs []) := by
  induction n generalizing s with
  | zero => exact drive_of_run i acts m (busy 0 Nat.one_pos)
  | succ n ih =>
    have later : ∀ k < n + 1, (progress^[k] ((progress s).withInputs [])).fsm = .run := fun k hk => by
      rw [progress_iterate_withInputs]
      exact busy (k + 1) (Nat.succ_lt_succ hk)
    rw [← Nat.add_assoc, drive_of_run i acts _ (s := s) (busy 0 (Nat.succ_pos _)), ih later,
      progress_iterate_withInputs]
    rfl

/-- An idle block accepts the command that the host drives on the very next edge. -/
theorem drive_one_of_idle {i : Instr} (inRange : i.WellFormed) (acts : List HostAct) {s : State}
    (idle : s.fsm = .idle) : drive 1 (.command i :: acts) s = exec i (s.withInputs []) := by
  have host : hostEdge s.cmdReady (.command i :: acts) = (.present (encode i), acts) := by
    rw [cmdReady_of_idle idle]; rfl
  have word : decode (PortIn.present (encode i)).word = i := by
    rw [word_present, decodeOfEncodeIsTheCommand i inRange]
  have accepted : acceptedAt (s.withInputs [.present (encode i)]) = some i :=
    (acceptedAt_of_presented (s := s.withInputs [.present (encode i)]) rfl rfl idle).trans (congrArg some word)
  obtain ⟨t, e⟩ := exec_total i (s.withInputs [])
  rw [drive_succ 0 host ((step_of_acceptedAt accepted).trans e), e]
  rfl

/-- Settles O57: the block is busy until the edge after its last wait; the command held until then is accepted on the
next edge. -/
theorem heldCommandIsAcceptedAtTheFirstIdleEdge : Obligations.HeldCommandIsAcceptedAtTheFirstIdleEdge := by
  intro s i acts ⟨_, _, bound, _, _⟩ run inRange
  have done := progress_iterate_of_run run bound
  have busy := fun k => busy_of_run_of_lt (k := k) run bound
  rw [Nat.add_right_comm] at done busy ⊢
  have idle : (progress^[s.waitCnt + s.stepsLeft.toNat * (waitCycles s.delayUnit s.params + 1) + 1] s).fsm = .idle := by
    rw [done]
  refine ⟨(progress^[s.waitCnt + s.stepsLeft.toNat * (waitCycles s.delayUnit s.params + 1) + 1] s).withInputs [],
    ?held, idle, ?delay, ?next⟩
  case held => exact (congrArg (drive · _ s) (Nat.zero_add _).symm).trans (drive_of_busy i acts _ 0 busy)
  case delay => rw [done]; rfl
  case next =>
    rw [Nat.add_comm _ 1]
    exact (drive_of_busy i acts _ 1 busy).trans (drive_one_of_idle inRange acts idle)

/-! ## Listings (R80) -/

/-- A pause of `edges` edges and one more on an idle block changes no register. -/
theorem drive_rest (edges m : Nat) (acts : List HostAct) {s : State} (idle : s.fsm = .idle) :
    drive (m + (edges + 1)) (.rest edges :: acts) s = drive m acts (s.withInputs []) := by
  have first : step (s.withInputs [.quiet]) = .next (s.withInputs []) := step_of_quiet rfl idle rfl
  induction edges generalizing s with
  | zero => exact drive_succ m (by rw [cmdReady_of_idle idle]; rfl) first
  | succ edges ih =>
    rw [← Nat.add_assoc, drive_succ (acts' := .rest edges :: acts) _ (by rw [cmdReady_of_idle idle]; rfl) first]
    exact ih (s := s.withInputs []) idle first

/-- Settles O58: the pause edge by edge; the reset edge comes next whether the block is ready or not. -/
theorem pauseAndResetOfAListing : Obligations.PauseAndResetOfAListing := by
  refine fun s acts t m => ⟨fun idle => ?pause, ?reset⟩
  case pause =>
    rw [Nat.add_comm _ m]
    exact drive_rest (t * s.params.cyclesPerUs) m acts idle
  case reset =>
    rw [Nat.add_comm 1 m]
    exact drive_succ m rfl (step_of_rst (s := s.withInputs [.resetLine]) rfl)

end Sys2Proof.Machine
